-- ==== Sys2Proof/Word.lean ====
section
/-! DEFINITION. The widths the spec names: bytes, 16-bit words, 12-bit addresses in an opcode, register indices. -/

namespace Sys2Proof

/-- A general register, a memory byte or the delay timer: 8 bits (10_state.md R20, R25, R29). -/
abbrev Byte := BitVec 8

/-- An opcode, the program counter, the index register or a stack entry: 16 bits (10_state.md R22, R23, R24). -/
abbrev Word := BitVec 16

/-- The `nnn` field, the low 12 bits of an opcode (30_encoding.md R72). -/
abbrev Addr12 := BitVec 12

/-- A register index, "always in [0,16) by construction" (10_state.md R20). -/
abbrev Reg := Fin 16

/-- VF, the general register that doubles as the flag (10_state.md R21). -/
abbrev vf : Reg := 15

end Sys2Proof
end

