-- ==== Sys2Proof/Config.lean ====
section
/-! DEFINITION. What is fixed for the machine: the sizes of 00_scope.md R4, the type of the FONT parameter, and the one
free value, the random byte (log 3). The defaults of the two parameters stand in Machine/Defaults.lean. -/

namespace Sys2Proof.Config

/-- `MEM_SIZE` (00_scope.md R4). -/
abbrev memSize : Nat := 4096

/-- `PROG_BASE`, where the ROM is loaded and where pc starts (00_scope.md R4). -/
abbrev progBase : Nat := 0x200

/-- The font table's size in bytes, "16 glyphs × 5 bytes" from address 0 (00_scope.md R4). -/
abbrev fontSize : Nat := 80

/-- `STACK_DEPTH` (00_scope.md R4). -/
abbrev stackDepth : Nat := 16

/-- `NKEYS` (00_scope.md R4). -/
abbrev numKeys : Nat := 16

/-- `FB_W` (00_scope.md R4). -/
abbrev fbWidth : Nat := 64

/-- `FB_H` (00_scope.md R4). -/
abbrev fbHeight : Nat := 32

/-- The type of parameter FONT: glyph `d` is five bytes, laid out at `5*d` (00_scope.md R5(a), 10_state.md R31). -/
abbrev Font := Vector (Vector Byte 5) 16

/-- The n-th random byte that the host has not named. DESIGN CHOICE (the form, log 3), safe: "the byte is under no law:
a model must let `rnd` be any of the 256 values at every execution" (42_const.md R123). It has no body, so a proof about
it holds for every sequence of bytes. -/
opaque freeByte : Nat → Byte

end Sys2Proof.Config
end

