-- ==== Sys2Proof/Syntax.lean ====
section
/-! DEFINITION. The instructions, one constructor per row of spec/opcode_table.json in the table's order, and the host's
operations (10_state.md R40 to R46). Register fields are `Reg`, so "register indices decoded from an opcode are always in
[0,16) by construction" (R20); immediates have their field's width (30_encoding.md R72). -/

namespace Sys2Proof

/-- The 34 instructions of 30_encoding.md R80. `y` of `shr` and `shl` and `x` of `ldStVx` are fields that the spec decodes
and ignores (R83); the term keeps them, so that encoding loses no bit (log 25). -/
inductive Instr where
  | cls                                  -- 00E0
  | ret                                  -- 00EE
  | jp (nnn : Addr12)                    -- 1nnn
  | call (nnn : Addr12)                  -- 2nnn
  | seImm (x : Reg) (nn : Byte)          -- 3xnn
  | sneImm (x : Reg) (nn : Byte)         -- 4xnn
  | seReg (x y : Reg)                    -- 5xy0
  | ldImm (x : Reg) (nn : Byte)          -- 6xnn
  | addImm (x : Reg) (nn : Byte)         -- 7xnn
  | ldReg (x y : Reg)                    -- 8xy0
  | orReg (x y : Reg)                    -- 8xy1
  | andReg (x y : Reg)                   -- 8xy2
  | xorReg (x y : Reg)                   -- 8xy3
  | addReg (x y : Reg)                   -- 8xy4
  | subReg (x y : Reg)                   -- 8xy5
  | shr (x y : Reg)                      -- 8xy6
  | subnReg (x y : Reg)                  -- 8xy7
  | shl (x y : Reg)                      -- 8xyE
  | sneReg (x y : Reg)                   -- 9xy0
  | ldI (nnn : Addr12)                   -- Annn
  | jpV0 (nnn : Addr12)                  -- Bnnn
  | rnd (x : Reg) (nn : Byte)            -- Cxnn
  | drw (x y : Reg) (n : Fin 16)         -- Dxyn
  | skp (x : Reg)                        -- Ex9E
  | sknp (x : Reg)                       -- ExA1
  | ldVxDt (x : Reg)                     -- Fx07
  | ldVxK (x : Reg)                      -- Fx0A
  | ldDtVx (x : Reg)                     -- Fx15
  | ldStVx (x : Reg)                     -- Fx18
  | addI (x : Reg)                       -- Fx1E
  | ldF (x : Reg)                        -- Fx29
  | ldB (x : Reg)                        -- Fx33
  | storeRegs (x : Reg)                  -- Fx55
  | loadRegs (x : Reg)                   -- Fx65
  deriving DecidableEq, Repr

/-- The seven operations by which the host touches the Machine (10_state.md R40 to R46). `loadByte` takes any number as
its address: WellFormed.lean refuses those outside the program area. -/
inductive HostOp where
  | reset
  | loadByte (addr : Nat) (val : Byte)
  | setKeypad (k : Vector Bool 16)
  | step (rnd : Byte)
  | tick
  | clearDC
  | readDisplay
  deriving DecidableEq, Repr

end Sys2Proof
end

