-- ==== Sys2Proof/WellFormed.lean ====
section
/-! DEFINITION. What is checked of a term before it is used. An instruction needs no check: every field has its exact
type (10_state.md R20, 30_encoding.md R72), so no ill-formed instruction can be written down. A host operation and a ROM
do: an address outside the program area and a ROM that does not fit are refused (10_state.md R41, 93 U17). -/

namespace Sys2Proof

/-- Every instruction term is well formed: "every value legal" of each operand field (30_encoding.md R75). -/
def Instr.wellFormed (_ : Instr) : Bool := true

/-- `LoadByte(addr, v)` is defined for `0x200 <= addr <= 0xFFF` only; the other operations take any argument
(10_state.md R41, R42, R43). -/
def HostOp.wellFormed : HostOp → Bool
  | .loadByte addr _ => decide (Config.progBase ≤ addr) && decide (addr < Config.memSize)
  | .reset | .setKeypad _ | .step _ | .tick | .clearDC | .readDisplay => true

/-- A ROM fits when it has at most `4096 − 0x200 = 3584` bytes; `State.loadRom` refuses a longer one (10_state.md R41). -/
def romWellFormed (rom : List Byte) : Bool := decide (rom.length ≤ Config.memSize - Config.progBase)

end Sys2Proof
end

