-- ==== Sys2Proof/Decode.lean ====
section
/-! DEFINITION. Decode (30_encoding.md R70 to R82), total on every word and every list of bytes and rejecting by name, the
opcode map as rows of mask and match, and the encoder. -/

namespace Sys2Proof

/-- The six fields of an opcode; all are always extracted (30_encoding.md R72). -/
structure Fields where
  f   : BitVec 4
  x   : Reg
  y   : Reg
  n   : Fin 16
  nn  : Byte
  nnn : Addr12
  deriving DecidableEq, Repr

/-- A four-bit field as an index. -/
def indexOf (b : BitVec 4) : Fin 16 := ⟨b.toNat, b.isLt⟩

/-- An index as a four-bit field. -/
def nibbleOf (x : Fin 16) : BitVec 4 := BitVec.ofNat 4 x.val

/-- The slices of 30_encoding.md R72. -/
def fields (w : Word) : Fields where
  f   := w.extractLsb' 12 4
  x   := indexOf (w.extractLsb' 8 4)
  y   := indexOf (w.extractLsb' 4 4)
  n   := indexOf (w.extractLsb' 0 4)
  nn  := w.extractLsb' 0 8
  nnn := w.extractLsb' 0 12

/-- Why a word is no instruction: the six classes of illegal words of 30_encoding.md R81, each with the selector that
matched nothing; `notTwoBytes` is the byte decoder's own (R70: every instruction is exactly two bytes). -/
inductive Illegal where
  | family0 (nnn : Addr12)
  | family5 (n : Fin 16)
  | family8 (n : Fin 16)
  | family9 (n : Fin 16)
  | familyE (nn : Byte)
  | familyF (nn : Byte)
  | notTwoBytes
  deriving DecidableEq, Repr

/-- Family 0: the whole `nnn` is the selector (30_encoding.md R76; the spec's choice D10, log 11). -/
def decode0 (d : Fields) : Except Illegal Instr :=
  if d.nnn = 0x0E0 then .ok .cls
  else if d.nnn = 0x0EE then .ok .ret
  else .error (.family0 d.nnn)

/-- Family 8: the selector is `n` (30_encoding.md R76). -/
def decode8 (d : Fields) : Except Illegal Instr :=
  match d.n with
  | 0x0 => .ok (.ldReg d.x d.y)
  | 0x1 => .ok (.orReg d.x d.y)
  | 0x2 => .ok (.andReg d.x d.y)
  | 0x3 => .ok (.xorReg d.x d.y)
  | 0x4 => .ok (.addReg d.x d.y)
  | 0x5 => .ok (.subReg d.x d.y)
  | 0x6 => .ok (.shr d.x d.y)
  | 0x7 => .ok (.subnReg d.x d.y)
  | 0xE => .ok (.shl d.x d.y)
  | n => .error (.family8 n)

/-- Family E: the selector is `nn` (30_encoding.md R76). -/
def decodeE (d : Fields) : Except Illegal Instr :=
  if d.nn = 0x9E then .ok (.skp d.x)
  else if d.nn = 0xA1 then .ok (.sknp d.x)
  else .error (.familyE d.nn)

/-- Family F: the selector is `nn` (30_encoding.md R76). -/
def decodeF (d : Fields) : Except Illegal Instr :=
  if d.nn = 0x07 then .ok (.ldVxDt d.x)
  else if d.nn = 0x0A then .ok (.ldVxK d.x)
  else if d.nn = 0x15 then .ok (.ldDtVx d.x)
  else if d.nn = 0x18 then .ok (.ldStVx d.x)
  else if d.nn = 0x1E then .ok (.addI d.x)
  else if d.nn = 0x29 then .ok (.ldF d.x)
  else if d.nn = 0x33 then .ok (.ldB d.x)
  else if d.nn = 0x55 then .ok (.storeRegs d.x)
  else if d.nn = 0x65 then .ok (.loadRegs d.x)
  else .error (.familyF d.nn)

/-- The instruction with these fields, by family and secondary selector (30_encoding.md R76). The last nibble of families
5 and 9 must be 0 (90_conflicts.md C3). -/
def decodeFields (d : Fields) : Except Illegal Instr :=
  match d.f with
  | 0x0#4 => decode0 d
  | 0x1#4 => .ok (.jp d.nnn)
  | 0x2#4 => .ok (.call d.nnn)
  | 0x3#4 => .ok (.seImm d.x d.nn)
  | 0x4#4 => .ok (.sneImm d.x d.nn)
  | 0x5#4 => if d.n = 0 then .ok (.seReg d.x d.y) else .error (.family5 d.n)
  | 0x6#4 => .ok (.ldImm d.x d.nn)
  | 0x7#4 => .ok (.addImm d.x d.nn)
  | 0x8#4 => decode8 d
  | 0x9#4 => if d.n = 0 then .ok (.sneReg d.x d.y) else .error (.family9 d.n)
  | 0xA#4 => .ok (.ldI d.nnn)
  | 0xB#4 => .ok (.jpV0 d.nnn)
  | 0xC#4 => .ok (.rnd d.x d.nn)
  | 0xD#4 => .ok (.drw d.x d.y d.n)
  | 0xE#4 => decodeE d
  | _ => decodeF d

/-- Decode depends on the opcode alone and is total (30_encoding.md R76). -/
def decode (w : Word) : Except Illegal Instr := decodeFields (fields w)

/-- `a ++ b`, the byte at the lower address being bits 15 to 8 (20_memory.md R52). -/
def bigEndian (hi lo : Byte) : Word := hi ++ lo

/-- The bytes of a word as memory holds them, lowest address first (30_encoding.md R70). -/
def wordBytes (w : Word) : List Byte := [w.extractLsb' 8 8, w.extractLsb' 0 8]

/-- Decode the bytes of one instruction as they stand in memory: exactly two, high byte first (30_encoding.md R70). -/
def decodeBytes : List Byte → Except Illegal Instr
  | [hi, lo] => decode (bigEndian hi lo)
  | _ => .error .notTwoBytes

/-- Format `NNN`: `f[15:12] nnn[11:0]` (30_encoding.md R74). -/
def encodeNNN (f : BitVec 4) (nnn : Addr12) : Word := f ++ nnn

/-- Format `XNN`: `f[15:12] x[11:8] nn[7:0]`; format `X` is this one with a literal low byte (30_encoding.md R74). -/
def encodeXNN (f : BitVec 4) (x : Reg) (nn : Byte) : Word := f ++ (nibbleOf x ++ nn : BitVec 12)

/-- Format `XYN`: `f[15:12] x[11:8] y[7:4] n[3:0]`; format `XY` is this one with a literal last nibble
(30_encoding.md R74). -/
def encodeXYN (f : BitVec 4) (x y n : Fin 16) : Word := encodeXNN f x (nibbleOf y ++ nibbleOf n : BitVec 8)

/-- The word of an instruction (30_encoding.md R74, R80). -/
def encode : Instr → Word
  | .cls => 0x00E0
  | .ret => 0x00EE
  | .jp nnn => encodeNNN 0x1 nnn
  | .call nnn => encodeNNN 0x2 nnn
  | .seImm x nn => encodeXNN 0x3 x nn
  | .sneImm x nn => encodeXNN 0x4 x nn
  | .seReg x y => encodeXYN 0x5 x y 0x0
  | .ldImm x nn => encodeXNN 0x6 x nn
  | .addImm x nn => encodeXNN 0x7 x nn
  | .ldReg x y => encodeXYN 0x8 x y 0x0
  | .orReg x y => encodeXYN 0x8 x y 0x1
  | .andReg x y => encodeXYN 0x8 x y 0x2
  | .xorReg x y => encodeXYN 0x8 x y 0x3
  | .addReg x y => encodeXYN 0x8 x y 0x4
  | .subReg x y => encodeXYN 0x8 x y 0x5
  | .shr x y => encodeXYN 0x8 x y 0x6
  | .subnReg x y => encodeXYN 0x8 x y 0x7
  | .shl x y => encodeXYN 0x8 x y 0xE
  | .sneReg x y => encodeXYN 0x9 x y 0x0
  | .ldI nnn => encodeNNN 0xA nnn
  | .jpV0 nnn => encodeNNN 0xB nnn
  | .rnd x nn => encodeXNN 0xC x nn
  | .drw x y n => encodeXYN 0xD x y n
  | .skp x => encodeXNN 0xE x 0x9E
  | .sknp x => encodeXNN 0xE x 0xA1
  | .ldVxDt x => encodeXNN 0xF x 0x07
  | .ldVxK x => encodeXNN 0xF x 0x0A
  | .ldDtVx x => encodeXNN 0xF x 0x15
  | .ldStVx x => encodeXNN 0xF x 0x18
  | .addI x => encodeXNN 0xF x 0x1E
  | .ldF x => encodeXNN 0xF x 0x29
  | .ldB x => encodeXNN 0xF x 0x33
  | .storeRegs x => encodeXNN 0xF x 0x55
  | .loadRegs x => encodeXNN 0xF x 0x65

/-- The `(match, mask)` of an instruction's row of the opcode map: the row is selected when `opcode AND mask = match`
(30_encoding.md R80). -/
def Instr.row : Instr → Word × Word
  | .cls => (0x00E0, 0xFFFF)
  | .ret => (0x00EE, 0xFFFF)
  | .jp _ => (0x1000, 0xF000)
  | .call _ => (0x2000, 0xF000)
  | .seImm _ _ => (0x3000, 0xF000)
  | .sneImm _ _ => (0x4000, 0xF000)
  | .seReg _ _ => (0x5000, 0xF00F)
  | .ldImm _ _ => (0x6000, 0xF000)
  | .addImm _ _ => (0x7000, 0xF000)
  | .ldReg _ _ => (0x8000, 0xF00F)
  | .orReg _ _ => (0x8001, 0xF00F)
  | .andReg _ _ => (0x8002, 0xF00F)
  | .xorReg _ _ => (0x8003, 0xF00F)
  | .addReg _ _ => (0x8004, 0xF00F)
  | .subReg _ _ => (0x8005, 0xF00F)
  | .shr _ _ => (0x8006, 0xF00F)
  | .subnReg _ _ => (0x8007, 0xF00F)
  | .shl _ _ => (0x800E, 0xF00F)
  | .sneReg _ _ => (0x9000, 0xF00F)
  | .ldI _ => (0xA000, 0xF000)
  | .jpV0 _ => (0xB000, 0xF000)
  | .rnd _ _ => (0xC000, 0xF000)
  | .drw _ _ _ => (0xD000, 0xF000)
  | .skp _ => (0xE09E, 0xF0FF)
  | .sknp _ => (0xE0A1, 0xF0FF)
  | .ldVxDt _ => (0xF007, 0xF0FF)
  | .ldVxK _ => (0xF00A, 0xF0FF)
  | .ldDtVx _ => (0xF015, 0xF0FF)
  | .ldStVx _ => (0xF018, 0xF0FF)
  | .addI _ => (0xF01E, 0xF0FF)
  | .ldF _ => (0xF029, 0xF0FF)
  | .ldB _ => (0xF033, 0xF0FF)
  | .storeRegs _ => (0xF055, 0xF0FF)
  | .loadRegs _ => (0xF065, 0xF0FF)

/-- The instruction this decoder reads from an instruction whose bits are `w`, numbered as spec/opcode_table.json numbers
them: one 16-bit word, bit 0 its least significant bit; bits above `nbits` are 0 (log 26). -/
def decodeTableWord (nbits w : Nat) : Option Instr :=
  (decodeBytes (wordBytes (BitVec.ofNat 16 (w % 2 ^ nbits)))).toOption

end Sys2Proof
end

