-- ==== Sys2Proof/Machine/Defaults.lean ====
section
/-! DEFINITION. The default values of the two parameters the spec leaves open (00_scope.md R5). -/

namespace Sys2Proof.Machine

/-- The customary CHIP-8 hexadecimal font that 10_state.md R31 prints. PRESUMED (R31: "from general knowledge, not in
source"; log 6), unsafe: a claim about a drawn glyph's pixels rests on these bytes. -/
def defaultFont : Config.Font := #v[
  #v[0xF0, 0x90, 0x90, 0x90, 0xF0],  -- 0
  #v[0x20, 0x60, 0x20, 0x20, 0x70],  -- 1
  #v[0xF0, 0x10, 0xF0, 0x80, 0xF0],  -- 2
  #v[0xF0, 0x10, 0xF0, 0x10, 0xF0],  -- 3
  #v[0x90, 0x90, 0xF0, 0x10, 0x10],  -- 4
  #v[0xF0, 0x80, 0xF0, 0x10, 0xF0],  -- 5
  #v[0xF0, 0x80, 0xF0, 0x90, 0xF0],  -- 6
  #v[0xF0, 0x10, 0x20, 0x40, 0x40],  -- 7
  #v[0xF0, 0x90, 0xF0, 0x90, 0xF0],  -- 8
  #v[0xF0, 0x90, 0xF0, 0x10, 0xF0],  -- 9
  #v[0xF0, 0x90, 0xF0, 0x90, 0x90],  -- A
  #v[0xE0, 0x90, 0xE0, 0x90, 0xE0],  -- B
  #v[0xF0, 0x80, 0x80, 0x80, 0xF0],  -- C
  #v[0xE0, 0x90, 0x90, 0x90, 0xE0],  -- D
  #v[0xF0, 0x80, 0xF0, 0x80, 0xF0],  -- E
  #v[0xF0, 0x80, 0xF0, 0x80, 0x80]]  -- F

/-- The default of FX1E_THRESHOLD (46_index_mem.md R170). DESIGN CHOICE (the spec's, D12; log 5), unsafe for a claim that
rests on it: every statement about Fx1E holds for every threshold. -/
def defaultFx1eThreshold : Nat := 0x0FFF

end Sys2Proof.Machine
end

