-- ==== Sys2Proof/Machine/State.lean ====
section
/-! DEFINITION. The machine's state, as plain data: every piece of state of 10_state.md, the two parameters the spec leaves
open, and the draw of the random byte; the state after reset (10_state.md R33); the reasons a step can stop. -/

namespace Sys2Proof.Machine

/-- Memory, 4096 bytes (10_state.md R25): the bytes that differ from the reset contents, as (address, byte) pairs in
rising order of address, and the FONT parameter that the reset contents are made of (log 6, log 8). -/
structure Memory where
  font  : Config.Font
  cells : List Host.Cell
  deriving DecidableEq, Repr

/-- The framebuffer: 32 rows of 64 one-bit pixels; column 0 is the most significant bit of its row (10_state.md R26,
44_display.md R152; log 24). -/
abbrev Framebuffer := Vector (BitVec 64) 32

/-- `Fault(cause, info)`: a fatal fault of the hardware with the value it records (60_exceptions.md R182). Taking one is
a NEXT state, with this latched in `status` (R186; log 1). -/
inductive Trap where
  | decode (opcode : Word)
  | stackOverflow (pc : Word)
  | stackUnderflow (pc : Word)
  | memoryBounds (i : Word)
  | keyIndex (k : Byte)
  deriving DecidableEq, Repr

/-- The five causes (60_exceptions.md R182). -/
inductive Cause where
  | decode | stackOverflow | stackUnderflow | memoryBounds | keyIndex
  deriving DecidableEq, Repr

/-- STATUS, the machine's run state (10_state.md R30; the latch is the spec's choice D2, log 1). -/
inductive Status where
  | running
  | ended
  | faulted (t : Trap)
  deriving DecidableEq, Repr

/-- The step result the host is given (60_exceptions.md R183). -/
inductive StepResult where
  | executed
  | endOfProgram
  | fault (c : Cause)
  deriving DecidableEq, Repr

/-- Everything the spec gives the machine, and at the end the model's own three fields. -/
structure State where
  /-- V[0] to V[15] (R20); V[15] is VF (R21). -/
  v : Vector Byte 16
  /-- The index register I (R22). -/
  i : Word
  /-- The program counter (R23). -/
  pc : Word
  /-- SP, the number of stack entries in use, 0 to 16 (R24). -/
  sp : Fin 17
  /-- STK[0] to STK[15] (R24). -/
  stk : Vector Word 16
  /-- MEM (R25). -/
  mem : Memory
  /-- FB (R26). -/
  fb : Framebuffer
  /-- DC, display changed (R27). -/
  dc : Bool
  /-- K[0] to K[15], pressed or not (R28; booleans by D22, log 22). -/
  keys : Vector Bool 16
  /-- The delay timer DT (R29). -/
  dt : Byte
  /-- STATUS (R30). -/
  status : Status
  /-- Parameter FX1E_THRESHOLD (00_scope.md R5(b)); no step writes it (log 5). -/
  fx1eThreshold : Nat
  /-- The model's own: the byte presented with `Step(rnd)` (R43); `none`: not named, then it is free (log 3). -/
  rnd : Option Byte
  /-- The model's own: how many random bytes have been drawn (log 3). -/
  draws : Nat
  deriving DecidableEq, Repr

/-- A stop of the model that is no fault of the hardware (those are `Trap`, a next state). -/
inductive Fault where
  /-- Raised by `cycle` when a running machine would fetch at `pc > 0xFFE`, beyond the 4096 bytes of memory. "A fetch never
  goes out of bounds" (20_memory.md R59): no run reaches it (log 23). Safe. -/
  | fetchOutsideMemory (pc : Word)
  deriving DecidableEq, Repr

/-- No meaning for what was asked. -/
inductive Refusal where
  /-- Raised by `exec` for an instruction without a meaning yet; no arm does. Safe. -/
  | notModelled (mnemonic : String)
  /-- Raised by the host operation `LoadByte` outside 0x200 to 0xFFF: "the operation is not defined for `addr > 0xFFF` or
  `addr < 0x200`" (10_state.md R41; log 19). Safe. -/
  | loadOutsideProgramArea (addr : Nat)
  /-- Raised by `State.loadRom` for a ROM of more than 3584 bytes: "does not fit" (10_state.md R41), "`refuse`: no launch
  state" (93_implementation_defined.md U17; D20, log 19). Safe. -/
  | romTooLong (length : Nat)
  deriving DecidableEq, Repr

/-- The outcome of a step or of one instruction. -/
abbrev Out := Host.Outcome State Fault Refusal

/-- The state after `Reset` with given parameters (10_state.md R33, 70_reset_and_hazards.md R200): pc and the font's place
are the source's; the zeros are the spec's choice D5 and `running` its choice D2 (log 7, log 1), unsafe. -/
def State.resetWith (font : Config.Font) (threshold : Nat) : State where
  v := Vector.replicate 16 0
  i := 0
  pc := 0x0200
  sp := 0
  stk := Vector.replicate 16 0
  mem := { font := font, cells := [] }
  fb := Vector.replicate 32 0
  dc := false
  keys := Vector.replicate 16 false
  dt := 0
  status := .running
  fx1eThreshold := threshold
  rnd := none
  draws := 0

/-- The state after `Reset` with the default parameters (10_state.md R33). No program is loaded (log 19). -/
def State.reset : State := State.resetWith defaultFont defaultFx1eThreshold

end Sys2Proof.Machine
end

