-- ==== Sys2Proof/Machine/Ops.lean ====
section
/-! DEFINITION. The named operations over the state: register file, memory, program counter, stack, timer, keypad, taking a
fault, and the instruction cycle. -/

namespace Sys2Proof.Machine

/-! ## Registers (10_state.md R20, R22, R29) -/

/-- `V[x]`; no register is hardwired (R20). -/
def State.readV (s : State) (x : Reg) : Byte := s.v[x]

/-- `V[x] <- b`. -/
def State.writeV (s : State) (x : Reg) (b : Byte) : State := { s with v := s.v.set x b }

/-- The whole register file written at once (Fx65). -/
def State.writeRegs (s : State) (v : Vector Byte 16) : State := { s with v := v }

/-- `I <- w`; all 16 bits are kept (R22; the spec's choice D13, log 13). -/
def State.writeI (s : State) (w : Word) : State := { s with i := w }

/-- `DT <- b`. -/
def State.writeDt (s : State) (b : Byte) : State := { s with dt := b }

/-! ## Memory (20_memory.md R50 to R58) -/

/-- What an address reads as when nothing listed says otherwise: the reset contents, FONT at 0x000 to 0x04F and zero above
(10_state.md R33; log 8). The zeros are the spec's choice D5 (log 7). -/
def Memory.background (m : Memory) (a : Nat) : Byte :=
  if h : a < 80 then (m.font[a / 5]'(by omega))[a % 5]'(by omega) else 0

/-- The byte listed for address `a`, if one is. -/
def findCell : List Host.Cell → Nat → Option Byte
  | [], _ => none
  | (b, v) :: cs, a => if b = a then some v else findCell cs a

/-- The list with address `a` no longer listed. -/
def eraseCell : List Host.Cell → Nat → List Host.Cell
  | [], _ => []
  | (b, v) :: cs, a => if b = a then eraseCell cs a else (b, v) :: eraseCell cs a

/-- The rising list with `v` listed for address `a`. -/
def insertCell : List Host.Cell → Nat → Byte → List Host.Cell
  | [], a, v => [(a, v)]
  | (b, u) :: cs, a, v =>
    if a < b then (a, v) :: (b, u) :: cs
    else if a = b then (a, v) :: cs
    else (b, u) :: insertCell cs a v

/-- `MemRead(addr, 1)` (00_scope.md R9). Every caller has checked `a <= 0xFFF` (log 28). -/
def Memory.read (m : Memory) (a : Nat) : Byte := (findCell m.cells a).getD (m.background a)

/-- `MemWrite(addr, 1, v)` (00_scope.md R9), keeping the canonical form: writing what an unlisted address reads as removes
the entry. Every caller has checked `a <= 0xFFF` (log 28). No address is protected (20_memory.md R57; log 17). -/
def Memory.write (m : Memory) (a : Nat) (v : Byte) : Memory :=
  if v = m.background a then { m with cells := eraseCell m.cells a }
  else { m with cells := insertCell m.cells a v }

/-- Bytes stored at `a`, `a+1`, ... in that order, with no wrap (20_memory.md R52, R58). -/
def Memory.writeBytes (m : Memory) (a : Nat) : List Byte → Memory
  | [] => m
  | b :: bs => (m.write a b).writeBytes (a + 1) bs

/-- The canonical form: addresses strictly rise and lie in memory, and no entry equals what its address reads as anyway
(log 8). -/
abbrev Memory.wf (m : Memory) : Prop :=
  m.cells.Pairwise (fun c d => c.1 < d.1) ∧ ∀ c ∈ m.cells, c.1 < 4096 ∧ c.2 ≠ m.background c.1

/-- Memory replaced by `m`. -/
def State.writeMem (s : State) (m : Memory) : State := { s with mem := m }

/-! ## Program counter (10_state.md R23) -/

/-- The generic advance, `pc <- pc + 2`. -/
def State.advance (s : State) : State := { s with pc := s.pc + 2 }

/-- A taken skip, `pc <- pc + 4`. -/
def State.skip (s : State) : State := { s with pc := s.pc + 4 }

/-- `if c then pc <- pc + 4 else pc <- pc + 2` (41_skip.md). -/
def State.skipIf (s : State) (c : Bool) : State := if c then s.skip else s.advance

/-- `pc <- target`; a target is not checked when the jump executes (40_flow.md). -/
def State.jumpTo (s : State) (target : Word) : State := { s with pc := target }

/-! ## Call stack (10_state.md R24) -/

/-- `STK[SP] <- w; SP <- SP + 1`. -/
def State.push (s : State) (w : Word) (h : s.sp.val < 16) : State :=
  { s with stk := s.stk.set s.sp.val w h, sp := ⟨s.sp.val + 1, Nat.succ_lt_succ h⟩ }

/-- The entry on top, `STK[SP − 1]`; the caller has checked `SP > 0`. -/
def State.top (s : State) : Word := s.stk[s.sp.val - 1]'(by omega)

/-- `SP <- SP − 1`; the popped slot keeps its value (R24; log 18). -/
def State.pop (s : State) : State := { s with sp := ⟨s.sp.val - 1, by omega⟩ }

/-! ## Display (10_state.md R26, R27) -/

/-- `FB` replaced and `DC <- 1`; the core only ever sets DC (R27). -/
def State.display (s : State) (fb : Framebuffer) : State := { s with fb := fb, dc := true }

/-- `FB[row][col]` (R26): column 0 is the most significant bit of its row (log 24). -/
def Framebuffer.pixel (fb : Framebuffer) (row : Fin 32) (col : Fin 64) : Bool := fb[row].getMsbD col.val

/-! ## The random byte (10_state.md R43) -/

/-- The byte of this draw: the one presented with the step, or a free one (log 3). -/
def State.draw (s : State) : Byte := s.rnd.getD (Config.freeByte s.draws)

/-- The draw is used up, so that the next one is independent of it (42_const.md R123; log 3). -/
def State.useDraw (s : State) : State := { s with rnd := none, draws := s.draws + 1 }

/-! ## Faults (60_exceptions.md R182, R186, R187) -/

/-- Taking a fault: `STATUS <- Faulted(cause, info)`, no other state changes, and control goes nowhere (R186; D4, log 16).
There is no return from it: "the only continuation is the host's", `Reset` (R187; Machine/HostOps.lean). -/
def State.latch (s : State) (t : Trap) : State := { s with status := .faulted t }

/-- The instruction raises `t`: the next state is the one with `t` latched (log 1). -/
def raise (t : Trap) (s : State) : Out := .next (s.latch t)

/-- The cause of a fault (60_exceptions.md R182). -/
def Trap.cause : Trap → Cause
  | .decode _ => .decode
  | .stackOverflow _ => .stackOverflow
  | .stackUnderflow _ => .stackUnderflow
  | .memoryBounds _ => .memoryBounds
  | .keyIndex _ => .keyIndex

/-- The cause codes, arbitrary labels of the spec (60_exceptions.md R182; its choice D3). -/
def Cause.code : Cause → Nat
  | .decode => 1
  | .stackOverflow => 2
  | .stackUnderflow => 3
  | .memoryBounds => 4
  | .keyIndex => 5

/-- The step result, which STATUS latches (60_exceptions.md R183; log 2). -/
def State.result (s : State) : StepResult :=
  match s.status with
  | .running => .executed
  | .ended => .endOfProgram
  | .faulted t => .fault t.cause

/-! ## The instruction cycle (30_encoding.md R71) -/

/-- `opcode <- MemRead(pc, 2)`, big-endian, at any pc, odd ones included (20_memory.md R52, R54; D11, log 12); nothing
when a byte of it would lie outside memory. -/
def State.fetch (s : State) : Option Word :=
  if s.pc.toNat + 1 ≤ 0xFFF then some (bigEndian (s.mem.read s.pc.toNat) (s.mem.read (s.pc.toNat + 1))) else none

/-- The termination check on the new pc, of a step that did not fault (30_encoding.md R71). -/
def State.endCheck (s : State) : State :=
  if s.status = .running ∧ s.pc.toNat + 1 > 0xFFF then { s with status := .ended } else s

/-- What the cycle does after the instruction. -/
def finish : Out → Out
  | .next s => .next s.endCheck
  | .fault r => .fault r
  | .refused r => .refused r

/-- `Step` (10_state.md R43, 30_encoding.md R71) over a meaning of each instruction: in a running machine fetch, decode,
execute, check for the end; in a stopped one "the operation changes no state" (D2, log 1). -/
def cycle (run : Instr → State → Out) (s : State) : Out :=
  match s.status with
  | .running =>
    match s.fetch with
    | none => .fault (.fetchOutsideMemory s.pc)
    | some w =>
      match decode w with
      | .ok i => finish (run i s)
      | .error _ => raise (.decode w) s
  | .ended => .next s
  | .faulted _ => .next s

/-- The state in which the very next step fetches and runs `w`: running, pc where a fetch lies in memory, the two bytes
of `w` there (log 26). -/
def State.placeWord (s : State) (w : Word) : State :=
  let pc : Word := if s.pc.toNat + 1 ≤ 0xFFF then s.pc else 0x0200
  { s with status := .running, pc := pc, mem := s.mem.writeBytes pc.toNat (wordBytes w) }

end Sys2Proof.Machine
end

