-- ==== Sys2Proof/Machine/Operands.lean ====
section
/-! DEFINITION. Every operand form (30_encoding.md R75): immediates, jump targets, the one data addressing mode with its
bounds check, the key an index names, register lists, and the sprite. -/

namespace Sys2Proof.Machine

/-- `zext_16(nnn)` (30_encoding.md R75). -/
def addrOperand (nnn : Addr12) : Word := nnn.setWidth 16

/-- `zext_16(b)` of a byte (30_encoding.md R75). -/
def byteOperand (b : Byte) : Word := b.setWidth 16

/-- `zext_16(V[0]) + zext_16(nnn)`, not reduced modulo 4096 (40_flow.md R103). -/
def State.offsetTarget (s : State) (nnn : Addr12) : Word := byteOperand (s.readV 0) + addrOperand nnn

/-- `EA = I + k`, computed without wrap (46_index_mem.md R175). -/
def State.ea (s : State) (k : Nat) : Nat := s.i.toNat + k

/-- The bounds policy: when the highest address touched, `I + last`, lies above 0xFFF, raise `Fault(MemoryBounds, I)` and
do nothing else; otherwise go on to `t` (20_memory.md R58; D4, D17, log 16). -/
def State.checked (s : State) (last : Nat) (t : State) : Out :=
  if s.ea last ≤ 0xFFF then .next t else raise (.memoryBounds s.i) s

/-- The skip of Ex9E and ExA1 on the key whose index is the value of `V[x]`: `want` is what `K[V[x]]` must be. An index
above 15 raises `Fault(KeyIndex, V[x])` (41_skip.md R114, R115; D14, log 14). -/
def State.skipOnKey (s : State) (x : Reg) (want : Bool) : Out :=
  if h : (s.readV x).toNat < 16 then .next (s.skipIf (s.keys[(s.readV x).toNat] == want))
  else raise (.keyIndex (s.readV x)) s

/-- The lowest-indexed pressed key, if any (45_timer_key.md R161). -/
def State.lowestKey (s : State) : Option (Fin 16) := (List.finRange 16).find? fun k => s.keys[k]

/-- The key's index as a register value, 0 to 15 (45_timer_key.md R161). -/
def keyByte (k : Fin 16) : Byte := BitVec.ofNat 8 k.val

/-- `V[0]` to `V[x]`, inclusive of the index `x` (46_index_mem.md R173; 90_conflicts.md C2, log 27). -/
def State.regsTo (s : State) (x : Reg) : List Byte := s.v.toList.take (x.val + 1)

/-- The register file with `V[k] <- MEM[I + k]` for `k` in `0..x` (46_index_mem.md R174; C2, log 27). -/
def State.regsLoaded (s : State) (x : Reg) : Vector Byte 16 :=
  Vector.ofFn fun k : Fin 16 => if k ≤ x then s.mem.read (s.ea k.val) else s.readV k

/-- Hundreds, tens, ones, each in its own byte (46_index_mem.md R172). -/
def digits (a : Byte) : List Byte :=
  [BitVec.ofNat 8 (a.toNat / 100), BitVec.ofNat 8 (a.toNat / 10 % 10), BitVec.ofNat 8 (a.toNat % 10)]

/-- `V[x] * 5`, the address of a glyph, with no masking of `V[x]` (46_index_mem.md R171). -/
def glyphAddr (a : Byte) : Word := BitVec.ofNat 16 (a.toNat * 5)

/-- A 64-bit row mask: the sprite byte, bit 7 first, at column `cx mod 64`, rotating within 64 columns
(44_display.md R152). -/
def rowMask (sprite cx : Byte) : BitVec 64 := (sprite ++ (0 : BitVec 56)).rotateRight (cx.toNat % 64)

/-- What Dxyn with these operands toggles in framebuffer row `row`: the mask of sprite row `r` where
`row = (cy + r) mod 32` and `r < n`, nothing where there is no such `r` (44_display.md R151, R152). -/
def State.drawMask (s : State) (x y : Reg) (n : Fin 16) (row : Fin 32) : BitVec 64 :=
  let r := (row.val + 32 - (s.readV y).toNat % 32) % 32
  if r < n.val then rowMask (s.mem.read (s.ea r)) (s.readV x) else 0

/-- The framebuffer after the draw: each row is `row_before XOR mask` (44_display.md R152). -/
def State.drawn (s : State) (x y : Reg) (n : Fin 16) : Framebuffer :=
  Vector.ofFn fun row : Fin 32 => s.fb[row] ^^^ s.drawMask x y n row

end Sys2Proof.Machine
end

