-- ==== Sys2Proof/Machine/Flags.lean ====
section
/-! DEFINITION. The seven flag computations (10_state.md R21), each from the operand values the instruction began with. -/

namespace Sys2Proof.Machine

/-- A flag as VF holds it: 1 or 0 (10_state.md R21). -/
def flagByte (b : Bool) : Byte := if b then 1 else 0

/-- The carry of 8xy4: 1 if the sum exceeds 255 (43_alu.md R135). -/
def carry (a b : Byte) : Bool := decide (a.toNat + b.toNat > 255)

/-- The no-borrow flag of `a − b`: 1 if `a >= b`, equality included (43_alu.md R136, R138). -/
def noBorrow (a b : Byte) : Bool := decide (b.toNat ≤ a.toNat)

/-- The bit a right shift puts out, `a[0]` (43_alu.md R137). -/
def outRight (a : Byte) : Bool := a.getLsbD 0

/-- The bit a left shift puts out, `a[7]` (43_alu.md R139). -/
def outLeft (a : Byte) : Bool := a.getLsbD 7

/-- The index-overflow flag: 1 if the new I is strictly above FX1E_THRESHOLD (46_index_mem.md R170; D12, log 5). -/
def State.indexOverflow (s : State) (new : Word) : Bool := decide (new.toNat > s.fx1eThreshold)

/-- The collision flag: the OR over all rows of `mask AND row_before` (44_display.md R152). -/
def State.collision (s : State) (x y : Reg) (n : Fin 16) : Bool :=
  (List.finRange 32).any fun row => s.fb[row] &&& s.drawMask x y n row != 0

/-- `VF <- flag`. -/
def State.writeFlag (s : State) (b : Bool) : State := s.writeV vf (flagByte b)

end Sys2Proof.Machine
end

