-- ==== Sys2Proof/Machine/Alu.lean ====
section
/-! DEFINITION. Register-to-register ALU (43_alu.md): 8xy0 to 8xy7, 8xyE. Operands are sampled once and the writes stand in
the row's order, so that with `x = 0xF` the later one remains (R130; the sampling is the spec's choice D8, log 9). That a
row writes nothing it does not list is its choice D9 (log 10). -/

namespace Sys2Proof.Machine

/-- A row that writes `V[x]` alone (43_alu.md R131 to R134). -/
def State.aluPlain (s : State) (x : Reg) (result : Byte) : Out := .next (s.writeV x result).advance

/-- A row that writes VF first and `V[x]` second; the result wins when `x = 0xF` (43_alu.md R130). -/
def State.aluFlagFirst (s : State) (x : Reg) (flag : Bool) (result : Byte) : Out :=
  .next ((s.writeFlag flag).writeV x result).advance

/-- 8xy0, `V[x] <- V[y]` (43_alu.md R131). -/
def execLdReg (x y : Reg) (s : State) : Out := s.aluPlain x (s.readV y)

/-- 8xy1 (43_alu.md R132). -/
def execOrReg (x y : Reg) (s : State) : Out := s.aluPlain x (s.readV x ||| s.readV y)

/-- 8xy2 (43_alu.md R133). -/
def execAndReg (x y : Reg) (s : State) : Out := s.aluPlain x (s.readV x &&& s.readV y)

/-- 8xy3 (43_alu.md R134). -/
def execXorReg (x y : Reg) (s : State) : Out := s.aluPlain x (s.readV x ^^^ s.readV y)

/-- 8xy4, sum and carry: `V[x]` first, VF second; the carry wins when `x = 0xF` (43_alu.md R130, R135). -/
def execAddReg (x y : Reg) (s : State) : Out :=
  .next ((s.writeV x (s.readV x + s.readV y)).writeFlag (carry (s.readV x) (s.readV y))).advance

/-- 8xy5, `V[x] − V[y]` (43_alu.md R136). -/
def execSubReg (x y : Reg) (s : State) : Out :=
  s.aluFlagFirst x (noBorrow (s.readV x) (s.readV y)) (s.readV x - s.readV y)

/-- 8xy6, logical shift right by one; `y` is ignored (43_alu.md R137). -/
def execShr (x _y : Reg) (s : State) : Out := s.aluFlagFirst x (outRight (s.readV x)) (s.readV x >>> 1)

/-- 8xy7, `V[y] − V[x]` (43_alu.md R138). -/
def execSubnReg (x y : Reg) (s : State) : Out :=
  s.aluFlagFirst x (noBorrow (s.readV y) (s.readV x)) (s.readV y - s.readV x)

/-- 8xyE, shift left by one; `y` is ignored (43_alu.md R139). -/
def execShl (x _y : Reg) (s : State) : Out := s.aluFlagFirst x (outLeft (s.readV x)) (s.readV x <<< 1)

end Sys2Proof.Machine
end

