-- ==== Sys2Proof/Machine/Const.lean ====
section
/-! DEFINITION. Immediate loads and add (42_const.md): 6xnn, 7xnn, Annn, Cxnn. -/

namespace Sys2Proof.Machine

/-- 6xnn, `V[x] <- nn` (42_const.md R120). -/
def execLdImm (x : Reg) (nn : Byte) (s : State) : Out := .next (s.writeV x nn).advance

/-- 7xnn, `V[x] <- (V[x] + nn) mod 256`, VF not modified (42_const.md R121). -/
def execAddImm (x : Reg) (nn : Byte) (s : State) : Out := .next (s.writeV x (s.readV x + nn)).advance

/-- Annn, `I <- zext_16(nnn)` (42_const.md R122). -/
def execLdI (nnn : Addr12) (s : State) : Out := .next (s.writeI (addrOperand nnn)).advance

/-- Cxnn, `V[x] <- rnd AND nn` (42_const.md R123; log 3). -/
def execRnd (x : Reg) (nn : Byte) (s : State) : Out := .next ((s.writeV x (s.draw &&& nn)).useDraw).advance

end Sys2Proof.Machine
end

