-- ==== Sys2Proof/Machine/Display.lean ====
section
/-! DEFINITION. Display (44_display.md): 00E0, Dxyn. -/

namespace Sys2Proof.Machine

/-- 00E0, clear the framebuffer and set DC, also when it was clear already (44_display.md R150; 90_conflicts.md C4). -/
def execCls (s : State) : Out := .next (s.display (Vector.replicate 32 0)).advance

/-- Dxyn: XOR-draw `n` sprite rows from `MEM[I]` on, `VF <- collision`, `DC <- 1`; the bounds check comes first and
`n = 0` needs none (44_display.md R151, R152; 20_memory.md R58). -/
def execDrw (x y : Reg) (n : Fin 16) (s : State) : Out :=
  let t := ((s.display (s.drawn x y n)).writeFlag (s.collision x y n)).advance
  if n.val = 0 then .next t else s.checked (n.val - 1) t

end Sys2Proof.Machine
end

