-- ==== Sys2Proof/Machine/Flow.lean ====
section
/-! DEFINITION. Control transfer (40_flow.md): 00EE, 1nnn, 2nnn, Bnnn. -/

namespace Sys2Proof.Machine

/-- 00EE, return (40_flow.md R100): the popped value is used as it is. -/
def execRet (s : State) : Out :=
  if s.sp.val = 0 then raise (.stackUnderflow s.pc) s else .next (s.pop.jumpTo s.top)

/-- 1nnn, jump (40_flow.md R101). -/
def execJp (nnn : Addr12) (s : State) : Out := .next (s.jumpTo (addrOperand nnn))

/-- 2nnn, call: push `pc + 2`, then jump (40_flow.md R102). -/
def execCall (nnn : Addr12) (s : State) : Out :=
  if h : s.sp.val < 16 then .next ((s.push (s.pc + 2) h).jumpTo (addrOperand nnn))
  else raise (.stackOverflow s.pc) s

/-- Bnnn, jump to `V[0] + nnn` (40_flow.md R103). -/
def execJpV0 (nnn : Addr12) (s : State) : Out := .next (s.jumpTo (s.offsetTarget nnn))

end Sys2Proof.Machine
end

