-- ==== Sys2Proof/Machine/IndexMem.lean ====
section
/-! DEFINITION. Index register and register-indirect memory access (46_index_mem.md): Fx1E, Fx29, Fx33, Fx55, Fx65. I is
never changed by an access (R175; D9, log 10). -/

namespace Sys2Proof.Machine

/-- Fx1E, `I <- (I + V[x]) mod 65536` first, then `VF <- (new I > FX1E_THRESHOLD)` (46_index_mem.md R170; D12, D13,
log 5, log 13). -/
def execAddI (x : Reg) (s : State) : Out :=
  let new := s.i + byteOperand (s.readV x)
  .next ((s.writeI new).writeFlag (s.indexOverflow new)).advance

/-- Fx29, `I <- V[x] * 5` (46_index_mem.md R171). -/
def execLdF (x : Reg) (s : State) : Out := .next (s.writeI (glyphAddr (s.readV x))).advance

/-- Fx33, three decimal digits at I, I+1, I+2 (46_index_mem.md R172). -/
def execLdB (x : Reg) (s : State) : Out :=
  s.checked 2 (s.writeMem (s.mem.writeBytes (s.ea 0) (digits (s.readV x)))).advance

/-- Fx55, dump V[0] to V[x] at I on (46_index_mem.md R173). -/
def execStoreRegs (x : Reg) (s : State) : Out :=
  s.checked x.val (s.writeMem (s.mem.writeBytes (s.ea 0) (s.regsTo x))).advance

/-- Fx65, load V[0] to V[x] from I on (46_index_mem.md R174). -/
def execLoadRegs (x : Reg) (s : State) : Out := s.checked x.val (s.writeRegs (s.regsLoaded x)).advance

end Sys2Proof.Machine
end

