-- ==== Sys2Proof/Machine/Skip.lean ====
section
/-! DEFINITION. Conditional skips (41_skip.md): 3xnn, 4xnn, 5xy0, 9xy0, Ex9E, ExA1. -/

namespace Sys2Proof.Machine

/-- 3xnn, skip if `V[x] = nn` (41_skip.md R110). -/
def execSeImm (x : Reg) (nn : Byte) (s : State) : Out := .next (s.skipIf (s.readV x == nn))

/-- 4xnn, skip if `V[x] != nn` (41_skip.md R111). -/
def execSneImm (x : Reg) (nn : Byte) (s : State) : Out := .next (s.skipIf (s.readV x != nn))

/-- 5xy0, skip if `V[x] = V[y]` (41_skip.md R112). -/
def execSeReg (x y : Reg) (s : State) : Out := .next (s.skipIf (s.readV x == s.readV y))

/-- 9xy0, skip if `V[x] != V[y]` (41_skip.md R113). -/
def execSneReg (x y : Reg) (s : State) : Out := .next (s.skipIf (s.readV x != s.readV y))

/-- Ex9E, skip if key `V[x]` is pressed (41_skip.md R114). -/
def execSkp (x : Reg) (s : State) : Out := s.skipOnKey x true

/-- ExA1, skip if key `V[x]` is not pressed (41_skip.md R115). -/
def execSknp (x : Reg) (s : State) : Out := s.skipOnKey x false

end Sys2Proof.Machine
end

