-- ==== Sys2Proof/Machine/TimerKey.lean ====
section
/-! DEFINITION. Timer and keypad (45_timer_key.md): Fx07, Fx0A, Fx15, Fx18. -/

namespace Sys2Proof.Machine

/-- Fx07, `V[x] <- DT` (45_timer_key.md R160). -/
def execLdVxDt (x : Reg) (s : State) : Out := .next (s.writeV x s.dt).advance

/-- Fx0A, the lowest pressed key to `V[x]`; with none pressed `V[x]` is unchanged, and pc advances in both cases: no wait
(45_timer_key.md R161). -/
def execLdVxK (x : Reg) (s : State) : Out :=
  match s.lowestKey with
  | some k => .next (s.writeV x (keyByte k)).advance
  | none => .next s.advance

/-- Fx15, `DT <- V[x]` (45_timer_key.md R162). -/
def execLdDtVx (x : Reg) (s : State) : Out := .next (s.writeDt (s.readV x)).advance

/-- Fx18, recognised, no effect but the advance; `x` is not used (45_timer_key.md R163; D16, log 15). -/
def execLdStVx (_x : Reg) (s : State) : Out := .next s.advance

end Sys2Proof.Machine
end

