-- ==== Sys2Proof/Machine/Step.lean ====
section
/-! DEFINITION. The step: one instruction cycle (30_encoding.md R71) over `exec`. -/

namespace Sys2Proof.Machine

/-- `Step` (10_state.md R43) with the byte presented in `rnd`, or a free one (log 3), and no host operation before or after
(log 20). -/
def step (s : State) : Host.Outcome State Fault Refusal := cycle exec s

/-- `s` with the instruction whose bits are `w` stored where the next step fetches (log 26). -/
def State.withFetchWord (s : State) (nbits w : Nat) : State := s.placeWord (BitVec.ofNat 16 (w % 2 ^ nbits))

end Sys2Proof.Machine
end

