-- ==== Sys2Proof/Machine/HostOps.lean ====
section
/-! DEFINITION. The host's operations (10_state.md R40 to R46): atomic, taken only between steps (00_scope.md R11), and
honoured in every STATUS (D21, log 20). -/

namespace Sys2Proof.Machine

/-- `Reset` (10_state.md R40): every piece of state to its reset value, in any STATUS. The parameters stay, and so does
the count of draws, so that the bytes drawn after a reset are as free as those before it (log 4). -/
def State.hostReset (s : State) : State := { State.resetWith s.mem.font s.fx1eThreshold with draws := s.draws }

/-- `LoadByte(addr, v)` for an address of the program area (10_state.md R41; D20, log 19). -/
def State.loadByte (s : State) (addr : Nat) (val : Byte) : State := s.writeMem (s.mem.write addr val)

/-- `SetKeypad(k)`: `K[i] <- k[i]` for every `i`, under no constraint (10_state.md R42). -/
def State.setKeypad (s : State) (k : Vector Bool 16) : State := { s with keys := k }

/-- `Tick`: `if DT > 0 then DT <- DT − 1` (10_state.md R44; at 0 it stays 0, D7, log 21). -/
def State.tick (s : State) : State := s.writeDt (if s.dt = 0 then 0 else s.dt - 1)

/-- `ClearDC` (10_state.md R45). -/
def State.clearDC (s : State) : State := { s with dc := false }

/-- `ReadDisplay` returns FB and DC and changes nothing (10_state.md R46). -/
def State.readDisplay (s : State) : Framebuffer × Bool := (s.fb, s.dc)

/-- The byte `rnd` presented with the step about to be taken, or taken back after it. -/
def State.present (s : State) (rnd : Option Byte) : State := { s with rnd := rnd }

/-- `Step(rnd)` with the byte the host names (10_state.md R43): the byte is there for this step only. -/
def stepWith (rnd : Byte) (s : State) : Host.Outcome State Fault Refusal :=
  match step (s.present (some rnd)) with
  | .next t => .next (t.present none)
  | .fault r => .fault r
  | .refused r => .refused r

/-- One host operation. -/
def applyOp : HostOp → State → Host.Outcome State Fault Refusal
  | .reset, s => .next s.hostReset
  | .loadByte addr val, s =>
    if (HostOp.loadByte addr val).wellFormed then .next (s.loadByte addr val)
    else .refused (.loadOutsideProgramArea addr)
  | .setKeypad k, s => .next (s.setKeypad k)
  | .step rnd, s => stepWith rnd s
  | .tick, s => .next s.tick
  | .clearDC, s => .next s.clearDC
  | .readDisplay, s => .next s

/-- The ROM loaded "verbatim into memory starting at address 0x200": byte `k` to `0x200 + k`. A ROM that does not fit is
refused and has no launch state (10_state.md R41, 93 U17; D20, log 19). -/
def State.loadRom (s : State) (rom : List Byte) : Out :=
  if romWellFormed rom then .next (s.writeMem (s.mem.writeBytes Config.progBase rom))
  else .refused (.romTooLong rom.length)

end Sys2Proof.Machine
end

