-- ==== Sys2Proof/Safety.lean ====
section
/-! DEFINITION. What counts as a safe run, in the terms claims use: the states a run can reach under every schedule of the
host, safe and final states, the invariant, and the words in which a statement says what an instruction leaves alone. -/

namespace Sys2Proof.Machine

/-- The states a run can reach (00_scope.md R11, 60_exceptions.md R191, 70_reset_and_hazards.md R201). Core steps and host
operations interleave freely; the flag says whether the ROM may still be loaded: "only after `Reset` and before the first
step" (10_state.md R41; log 19, log 20). The parameters are any (00_scope.md R5). -/
inductive Reach : Bool → State → Prop
  | reset (font : Config.Font) (threshold : Nat) : Reach true (State.resetWith font threshold)
  | again {b s} : Reach b s → Reach true s.hostReset
  | load {s t addr val} : Reach true s → applyOp (.loadByte addr val) s = .next t → Reach true t
  | loadRom {s t} (rom) : Reach true s → s.loadRom rom = .next t → Reach true t
  | keypad {b s} (k) : Reach b s → Reach b (s.setKeypad k)
  | tick {b s} : Reach b s → Reach b s.tick
  | clear {b s} : Reach b s → Reach b s.clearDC
  | step {b s t} : Reach b s → step s = .next t → Reach false t
  | stepWith {b s t} (rnd) : Reach b s → stepWith rnd s = .next t → Reach false t

/-- A faulted state refutes any claim that the program runs correctly (60_exceptions.md R187). -/
def State.safe (s : State) : Prop := ∀ t, s.status ≠ .faulted t

/-- "`Ended` is the only final state" (60_exceptions.md R187). -/
def State.final (s : State) : Prop := s.status = .ended

/-- What holds of every state a run reaches (10_state.md R23, R24; log 8): memory is in canonical form, a running machine
can fetch, pc is at most 0x10FE, and the stack entries in use are return addresses, 2 to 0x1000. -/
structure State.Inv (s : State) : Prop where
  mem_wf     : s.mem.wf
  fetchable  : s.status = .running → s.pc.toNat ≤ 0xFFE
  pc_le      : s.pc.toNat ≤ 0x10FE
  entries_ok : ∀ k : Fin 16, k.val < s.sp.val → 2 ≤ s.stk[k].toNat ∧ s.stk[k].toNat ≤ 0x1000

/-- The pieces of state beside the general registers, pc and STATUS. -/
inductive Part where
  | index | stack | memory | framebuffer | displayChanged | keypad | delayTimer | parameters | draw
  deriving DecidableEq, Repr

/-- `t` has the same `p` as `s`; memory is compared byte by byte. -/
def Part.same : Part → State → State → Prop
  | .index, s, t => t.i = s.i
  | .stack, s, t => t.sp = s.sp ∧ t.stk = s.stk
  | .memory, s, t => ∀ a, t.mem.read a = s.mem.read a
  | .framebuffer, s, t => ∀ row col, t.fb.pixel row col = s.fb.pixel row col
  | .displayChanged, s, t => t.dc = s.dc
  | .keypad, s, t => t.keys = s.keys
  | .delayTimer, s, t => t.dt = s.dt
  | .parameters, s, t => t.mem.font = s.mem.font ∧ t.fx1eThreshold = s.fx1eThreshold
  | .draw, s, t => t.rnd = s.rnd ∧ t.draws = s.draws

/-- The frame of an instruction that went from `s` to `t`: STATUS, every general register outside `regs` and every part
outside `parts` are unchanged. pc may change. -/
def frame (regs : List Reg) (parts : List Part) (s t : State) : Prop :=
  t.status = s.status ∧ (∀ r, r ∉ regs → t.readV r = s.readV r) ∧ ∀ p, p ∉ parts → p.same s t

/-- The registers an instruction names as its destination (10_state.md R20); `loadRegs` names V[0] to V[x]. -/
def destRegs : Instr → List Reg
  | .ldImm x _ | .addImm x _ | .rnd x _ => [x]
  | .ldReg x _ | .orReg x _ | .andReg x _ | .xorReg x _ => [x]
  | .addReg x _ | .subReg x _ | .shr x _ | .subnReg x _ | .shl x _ => [x]
  | .ldVxDt x | .ldVxK x => [x]
  | .loadRegs x => (List.finRange 16).filter fun r => r ≤ x
  | .cls | .ret | .jp _ | .call _ | .seImm _ _ | .sneImm _ _ | .seReg _ _ | .sneReg _ _ | .ldI _ | .jpV0 _ => []
  | .drw _ _ _ | .skp _ | .sknp _ | .ldDtVx _ | .ldStVx _ | .addI _ | .ldF _ | .ldB _ | .storeRegs _ => []

/-- "The instructions that write VF as a side effect ... are exactly these seven" (10_state.md R21). -/
def writesFlag : Instr → Bool
  | .addReg _ _ | .subReg _ _ | .shr _ _ | .subnReg _ _ | .shl _ _ | .drw _ _ _ | .addI _ => true
  | .cls | .ret | .jp _ | .call _ | .seImm _ _ | .sneImm _ _ | .seReg _ _ | .sneReg _ _ | .ldI _ | .jpV0 _ => false
  | .ldImm _ _ | .addImm _ _ | .rnd _ _ | .ldReg _ _ | .orReg _ _ | .andReg _ _ | .xorReg _ _ => false
  | .skp _ | .sknp _ | .ldVxDt _ | .ldVxK _ | .ldDtVx _ | .ldStVx _ | .ldF _ | .ldB _ | .storeRegs _ | .loadRegs _ => false

/-- The parts an instruction may write (10_state.md R22, R24 to R29). The draw is the model's own (log 3). -/
def writtenParts : Instr → List Part
  | .ldI _ | .addI _ | .ldF _ => [.index]
  | .call _ | .ret => [.stack]
  | .ldB _ | .storeRegs _ => [.memory]
  | .cls | .drw _ _ _ => [.framebuffer, .displayChanged]
  | .ldDtVx _ => [.delayTimer]
  | .rnd _ _ => [.draw]
  | .jp _ | .seImm _ _ | .sneImm _ _ | .seReg _ _ | .sneReg _ _ | .jpV0 _ | .ldImm _ _ | .addImm _ _ => []
  | .ldReg _ _ | .orReg _ _ | .andReg _ _ | .xorReg _ _ | .addReg _ _ | .subReg _ _ | .shr _ _ | .subnReg _ _ => []
  | .shl _ _ | .skp _ | .sknp _ | .ldVxDt _ | .ldVxK _ | .ldStVx _ | .loadRegs _ => []

/-- "instructions that explicitly set PC (jump/call/return)" (10_state.md R23). -/
def setsPc : Instr → Bool
  | .ret | .jp _ | .call _ | .jpV0 _ => true
  | .cls | .seImm _ _ | .sneImm _ _ | .seReg _ _ | .sneReg _ _ | .ldI _ | .ldImm _ _ | .addImm _ _ | .rnd _ _ => false
  | .ldReg _ _ | .orReg _ _ | .andReg _ _ | .xorReg _ _ | .addReg _ _ | .subReg _ _ | .shr _ _ | .subnReg _ _ => false
  | .shl _ _ | .drw _ _ _ | .skp _ | .sknp _ | .ldVxDt _ | .ldVxK _ | .ldDtVx _ | .ldStVx _ | .addI _ | .ldF _ => false
  | .ldB _ | .storeRegs _ | .loadRegs _ => false

/-- "the six skip instructions" (10_state.md R23). -/
def isSkip : Instr → Bool
  | .seImm _ _ | .sneImm _ _ | .seReg _ _ | .sneReg _ _ | .skp _ | .sknp _ => true
  | .cls | .ret | .jp _ | .call _ | .jpV0 _ | .ldI _ | .ldImm _ _ | .addImm _ _ | .rnd _ _ | .ldReg _ _ => false
  | .orReg _ _ | .andReg _ _ | .xorReg _ _ | .addReg _ _ | .subReg _ _ | .shr _ _ | .subnReg _ _ | .shl _ _ => false
  | .drw _ _ _ | .ldVxDt _ | .ldVxK _ | .ldDtVx _ | .ldStVx _ | .addI _ | .ldF _ | .ldB _ => false
  | .storeRegs _ | .loadRegs _ => false

/-- The table of 60_exceptions.md R182 for a decoded instruction: which fault it raises in state `s`, with its info. -/
def faultOf (s : State) : Instr → Option Trap
  | .call _ => if s.sp.val = 16 then some (.stackOverflow s.pc) else none
  | .ret => if s.sp.val = 0 then some (.stackUnderflow s.pc) else none
  | .drw _ _ n => if n.val > 0 ∧ s.i.toNat + (n.val - 1) > 0xFFF then some (.memoryBounds s.i) else none
  | .ldB _ => if s.i.toNat + 2 > 0xFFF then some (.memoryBounds s.i) else none
  | .storeRegs x | .loadRegs x => if s.i.toNat + x.val > 0xFFF then some (.memoryBounds s.i) else none
  | .skp x | .sknp x => if (s.readV x).toNat > 15 then some (.keyIndex (s.readV x)) else none
  | .cls | .jp _ | .jpV0 _ | .seImm _ _ | .sneImm _ _ | .seReg _ _ | .sneReg _ _ | .ldI _ | .ldImm _ _ | .addImm _ _ => none
  | .rnd _ _ | .ldReg _ _ | .orReg _ _ | .andReg _ _ | .xorReg _ _ | .addReg _ _ | .subReg _ _ | .shr _ _ => none
  | .subnReg _ _ | .shl _ _ | .ldVxDt _ | .ldVxK _ | .ldDtVx _ | .ldStVx _ | .addI _ | .ldF _ => none

/-- The words as the instructions' own rules spell them, `base | nnn` (40_flow.md R101, ...). -/
def ruleWordNNN (base : Word) (nnn : Addr12) : Word := base ||| nnn.setWidth 16

/-- `base | x << 8` (45_timer_key.md R160, ...). -/
def ruleWordX (base : Word) (x : Reg) : Word := base ||| BitVec.ofNat 16 x.val <<< 8

/-- `base | x << 8 | nn` (41_skip.md R110, ...). -/
def ruleWordXNN (base : Word) (x : Reg) (nn : Byte) : Word := ruleWordX base x ||| nn.setWidth 16

/-- `base | x << 8 | y << 4` (43_alu.md R131, ...). -/
def ruleWordXY (base : Word) (x y : Reg) : Word := ruleWordX base x ||| BitVec.ofNat 16 y.val <<< 4

/-- `0xD000 | x << 8 | y << 4 | n` (44_display.md R151). -/
def ruleWordXYN (base : Word) (x y n : Fin 16) : Word := ruleWordXY base x y ||| BitVec.ofNat 16 n.val

/-- Some sprite bit that is 1 lands on pixel (row, col): bit `7 − b` of `MEM[I + r]` for `r < n` and `b < 8` with
`row = (V[y] + r) mod 32` and `col = (V[x] + b) mod 64` (44_display.md R151). -/
def spriteBit (s : State) (x y : Reg) (n : Fin 16) (row : Fin 32) (col : Fin 64) : Prop :=
  ∃ r b : Nat, r < n.val ∧ b < 8 ∧ row.val = ((s.readV y).toNat + r) % 32 ∧ col.val = ((s.readV x).toNat + b) % 64 ∧
    (s.mem.read (s.i.toNat + r)).getLsbD (7 - b) = true

/-- One turn of the inner loop of 44_display.md R151 at (row, col): `coll <- coll OR (bit AND FB[row][col])`, then
`FB[row][col] <- FB[row][col] XOR bit`. -/
def loopPixel (row : Fin 32) (col : Fin 64) (bit : Bool) (acc : (Fin 32 → Fin 64 → Bool) × Bool) :
    (Fin 32 → Fin 64 → Bool) × Bool :=
  (fun i j => if i = row ∧ j = col then xor (acc.1 i j) bit else acc.1 i j, acc.2 || (bit && acc.1 row col))

/-- The two loops of 44_display.md R151, in its order, from the framebuffer of `s` and `coll = 0`. -/
def drawLoop (s : State) (x y : Reg) (n : Fin 16) : (Fin 32 → Fin 64 → Bool) × Bool :=
  (List.range n.val).foldl (fun acc r =>
    (List.range 8).foldl (fun acc b =>
      loopPixel (Fin.ofNat 32 ((s.readV y).toNat + r)) (Fin.ofNat 64 ((s.readV x).toNat + b))
        ((s.mem.read (s.i.toNat + r)).getLsbD (7 - b)) acc) acc)
    (s.fb.pixel, false)

/-- Two states that a program cannot tell apart: they differ at most in stack entries not in use (10_state.md R24). -/
def sameUpToDeadEntries (s t : State) : Prop :=
  t = { s with stk := t.stk } ∧ ∀ k : Fin 16, k.val < s.sp.val → t.stk[k] = s.stk[k]

end Sys2Proof.Machine
end

