-- ==== Sys2Proof/Certificates/Slice0/Obligations.lean ====
section
/-! DEFINITION. The statements for the provers. Each docstring names the rule of spec/ it formalises and, where it rests on
a choice that the spec marks as its own (a decision D<n>) or on one of the model's, says so. -/

open Sys2Proof Sys2Proof.Machine

/-! ## Encoding -/

/-- Decoding what an instruction is encoded as gives it back, as a word and as the two bytes memory holds: no bit of an
encoding is dropped (30_encoding.md R70, R72, R74, R80). -/
def Obligations.DecodeOfEncodeIsTheInstruction : Prop :=
  ∀ i : Instr, decode (encode i) = .ok i ∧ decodeBytes (wordBytes (encode i)) = .ok i

/-- Each word has one meaning: a word that decodes to `i` is the encoding of `i` (30_encoding.md R74, R80; the ignored
fields of R83 stay in the term, log 25). -/
def Obligations.EncodeOfDecodeIsTheWord : Prop :=
  ∀ (w : Word) (i : Instr), decode w = .ok i → encode i = w

/-- The opcode map: a word meets a row's mask and match exactly when it decodes to an instruction of that row
(30_encoding.md R76, R80). So no two rows overlap. -/
def Obligations.RowMatchesExactlyWhenDecodedToIt : Prop :=
  ∀ (w : Word) (j : Instr), w &&& j.row.2 = j.row.1 ↔ ∃ i, decode w = .ok i ∧ i.row = j.row

/-- The words that are no instruction are exactly those of the six classes (30_encoding.md R81; the selectors of families
0, 5 and 9 are the spec's choice D10, log 11). -/
def Obligations.IllegalWordsAreExactlyTheSixClasses : Prop :=
  ∀ w : Word, (∃ e, decode w = .error e) ↔
    ((fields w).f = 0x0 ∧ (fields w).nnn ≠ 0x0E0 ∧ (fields w).nnn ≠ 0x0EE) ∨
    ((fields w).f = 0x5 ∧ (fields w).n ≠ 0) ∨
    ((fields w).f = 0x8 ∧ (fields w).n ∈ ([0x8, 0x9, 0xA, 0xB, 0xC, 0xD, 0xF] : List (Fin 16))) ∨
    ((fields w).f = 0x9 ∧ (fields w).n ≠ 0) ∨
    ((fields w).f = 0xE ∧ (fields w).nn ∉ ([0x9E, 0xA1] : List Byte)) ∨
    ((fields w).f = 0xF ∧ (fields w).nn ∉ ([0x07, 0x0A, 0x15, 0x18, 0x1E, 0x29, 0x33, 0x55, 0x65] : List Byte))

/-- Words written out from the patterns of 30_encoding.md R80 decode to their instructions, and 0x5121 to none
(95_test_vectors.md T1 and 2.8; that family 5 has a last nibble to check is the spec's choice D10, log 11, which follows
90_conflicts.md C3). -/
def Obligations.SampleWordsDecode : Prop :=
  decode 0x1228 = .ok (.jp 0x228) ∧ decode 0x8014 = .ok (.addReg 0 1) ∧ decode 0xD5A7 = .ok (.drw 5 10 7) ∧
  decode 0xFE55 = .ok (.storeRegs 14) ∧ decode 0xC50F = .ok (.rnd 5 0x0F) ∧ decode 0xE29E = .ok (.skp 2) ∧
  decode 0x00EE = .ok .ret ∧ decode 0x5121 = .error (.family5 1)

/-- Every encoding as the instructions' own rules spell it, with every value of every field, decodes to that instruction
(30_encoding.md R80 and the "Encoding" line of each of R100 to R174): every bit is read where the rule puts it. -/
def Obligations.EncodingsOfTheRulesDecode : Prop :=
  ∀ (x y n : Fin 16) (nn : Byte) (nnn : Addr12),
    decode 0x00E0 = .ok .cls ∧ decode 0x00EE = .ok .ret ∧
    decode (ruleWordNNN 0x1000 nnn) = .ok (.jp nnn) ∧ decode (ruleWordNNN 0x2000 nnn) = .ok (.call nnn) ∧
    decode (ruleWordXNN 0x3000 x nn) = .ok (.seImm x nn) ∧ decode (ruleWordXNN 0x4000 x nn) = .ok (.sneImm x nn) ∧
    decode (ruleWordXY 0x5000 x y) = .ok (.seReg x y) ∧ decode (ruleWordXNN 0x6000 x nn) = .ok (.ldImm x nn) ∧
    decode (ruleWordXNN 0x7000 x nn) = .ok (.addImm x nn) ∧ decode (ruleWordXY 0x8000 x y) = .ok (.ldReg x y) ∧
    decode (ruleWordXY 0x8001 x y) = .ok (.orReg x y) ∧ decode (ruleWordXY 0x8002 x y) = .ok (.andReg x y) ∧
    decode (ruleWordXY 0x8003 x y) = .ok (.xorReg x y) ∧ decode (ruleWordXY 0x8004 x y) = .ok (.addReg x y) ∧
    decode (ruleWordXY 0x8005 x y) = .ok (.subReg x y) ∧ decode (ruleWordXY 0x8006 x y) = .ok (.shr x y) ∧
    decode (ruleWordXY 0x8007 x y) = .ok (.subnReg x y) ∧ decode (ruleWordXY 0x800E x y) = .ok (.shl x y) ∧
    decode (ruleWordXY 0x9000 x y) = .ok (.sneReg x y) ∧ decode (ruleWordNNN 0xA000 nnn) = .ok (.ldI nnn) ∧
    decode (ruleWordNNN 0xB000 nnn) = .ok (.jpV0 nnn) ∧ decode (ruleWordXNN 0xC000 x nn) = .ok (.rnd x nn) ∧
    decode (ruleWordXYN 0xD000 x y n) = .ok (.drw x y n) ∧ decode (ruleWordX 0xE09E x) = .ok (.skp x) ∧
    decode (ruleWordX 0xE0A1 x) = .ok (.sknp x) ∧ decode (ruleWordX 0xF007 x) = .ok (.ldVxDt x) ∧
    decode (ruleWordX 0xF00A x) = .ok (.ldVxK x) ∧ decode (ruleWordX 0xF015 x) = .ok (.ldDtVx x) ∧
    decode (ruleWordX 0xF018 x) = .ok (.ldStVx x) ∧ decode (ruleWordX 0xF01E x) = .ok (.addI x) ∧
    decode (ruleWordX 0xF029 x) = .ok (.ldF x) ∧ decode (ruleWordX 0xF033 x) = .ok (.ldB x) ∧
    decode (ruleWordX 0xF055 x) = .ok (.storeRegs x) ∧ decode (ruleWordX 0xF065 x) = .ok (.loadRegs x)

/-! ## The instruction cycle -/

/-- A step runs the decoded instruction. In a running machine whose two bytes at pc, high byte first, decode to `i`, the
step is `exec i`, and then, unless it faulted, the termination check on the new pc (30_encoding.md R71, 20_memory.md R52;
the ENDED latch is the spec's choice D2). -/
def Obligations.StepRunsTheDecodedInstruction : Prop :=
  ∀ (s : State) (i : Instr), s.status = .running → s.pc.toNat ≤ 0xFFE →
    decode (s.mem.read s.pc.toNat ++ s.mem.read (s.pc.toNat + 1)) = .ok i →
    ∃ t, exec i s = .next t ∧
      step s = .next (if t.status = .running ∧ t.pc.toNat + 1 > 0xFFF then { t with status := .ended } else t)

/-- Executing a word that is no instruction raises Fault(Decode, opcode): STATUS alone changes (30_encoding.md R81,
60_exceptions.md R182, R186; latch, info and precision are the spec's choices D2, D3, D4). -/
def Obligations.IllegalWordLatchesDecodeFault : Prop :=
  ∀ (s : State) (e : Illegal), s.status = .running → s.pc.toNat ≤ 0xFFE →
    decode (s.mem.read s.pc.toNat ++ s.mem.read (s.pc.toNat + 1)) = .error e →
    step s = .next { s with status := .faulted (.decode (s.mem.read s.pc.toNat ++ s.mem.read (s.pc.toNat + 1))) }

/-- A step taken when STATUS is not Running changes no state, with or without a byte named by the host, and reports the
latched result again (10_state.md R43, the spec's choice D2). The host's byte is the model's own field (log 3). -/
def Obligations.StoppedMachineStepsToItself : Prop :=
  ∀ s : State, s.status ≠ .running →
    step s = .next s ∧ ∀ b, s.rnd = none → stepWith b s = .next s

/-- Every step of a running machine ends it exactly when it did not fault and the new pc lies at 0xFFF or above
(60_exceptions.md R184; the latch is the spec's choice D2). -/
def Obligations.EndsExactlyWhenPcLeavesMemory : Prop :=
  ∀ s t : State, s.status = .running → step s = .next t →
    (t.status = .ended ↔ t.safe ∧ 0xFFF ≤ t.pc.toNat) ∧ (t.status = .running ↔ t.safe ∧ t.pc.toNat ≤ 0xFFE)

/-- Faults are precise: a step that faults changes STATUS and nothing else (60_exceptions.md R186, the spec's choice D4). -/
def Obligations.FaultingStepChangesOnlyStatus : Prop :=
  ∀ (s t : State) (f : Trap), s.status = .running → step s = .next t → t.status = .faulted f →
    t = { s with status := .faulted f }

/-- An instruction raises exactly the fault, with exactly the info, that the table of 60_exceptions.md R182 gives for the
state, changing nothing else; where the table gives none it goes on (R185; the spec's choices D2, D3, D4, D14, D17). -/
def Obligations.FaultsExactlyAsTheTableSays : Prop :=
  ∀ (i : Instr) (s : State), s.status = .running →
    (∀ f, faultOf s i = some f → exec i s = .next { s with status := .faulted f }) ∧
    (faultOf s i = none → ∃ t, exec i s = .next t ∧ t.status = .running)

/-- `pc <- pc + 2` for every instruction but those that set pc, and `pc + 2` or `pc + 4` for the skips
(10_state.md R23). -/
def Obligations.PcAdvancesByTwoUnlessStatedOtherwise : Prop :=
  ∀ (i : Instr) (s t : State), s.status = .running → exec i s = .next t → t.status = .running → setsPc i = false →
    (isSkip i = false → t.pc = s.pc + 2) ∧ (isSkip i = true → t.pc = s.pc + 2 ∨ t.pc = s.pc + 4)

/-! ## Invariants -/

/-- The reset state, with the default parameters or any others, meets the invariant: pc is 0x200 (10_state.md R23, R33), the
stack is empty, which is the spec's choice D5 (log 7), and memory is in the canonical form, which is the model's own
(log 8). -/
def Obligations.ResetMeetsTheInvariant : Prop :=
  State.reset.Inv ∧ ∀ font threshold, (State.resetWith font threshold).Inv

/-- From every state that meets the invariant the step answers a next state, which meets it again, and so does every host
operation and ROM load that answers one: a running machine has `pc <= 0xFFE`, pc never exceeds 0x10FE, the stack entries in
use are return addresses (10_state.md R23, R24, 20_memory.md R59), and memory stays in canonical form, which is the model's
own (log 8). That a fault too is a next state is log 1 (the spec's choice D2). -/
def Obligations.EveryStepKeepsTheInvariant : Prop :=
  ∀ s : State, s.Inv → (∃ t, step s = .next t ∧ t.Inv) ∧ (∀ op t, applyOp op s = .next t → t.Inv) ∧
    ∀ rom t, s.loadRom rom = .next t → t.Inv

/-- Under every schedule of the host, ROM loads, keypad writes, ticks, resets and named random bytes included, every state
a run reaches meets the invariant (00_scope.md R11, 60_exceptions.md R191). The canonical form in it is the model's own
(log 8); which host operations fall where is the spec's choices D20, D21 and `Reach` the model's wording of them (log 19,
log 20). -/
def Obligations.EveryReachableStateMeetsTheInvariant : Prop :=
  ∀ (b : Bool) (s : State), Reach b s → s.Inv

/-- Memories in canonical form that read alike at every address are equal data (log 8; the form is the model's own). -/
def Obligations.CanonicalMemoriesReadingAlikeAreEqual : Prop :=
  ∀ m k : Memory, m.wf → k.wf → m.font = k.font → (∀ a, m.read a = k.read a) → m = k

/-! ## Whole-machine rules -/

/-- Whatever the instruction, a general register outside its destinations is unchanged, VF too unless the instruction is
one of the seven that write it as a side effect (10_state.md R20, R21; "a row lists all its writes" is D9). -/
def Obligations.OnlyNamedRegistersAndTheFlagChange : Prop :=
  ∀ (i : Instr) (s t : State) (r : Reg), exec i s = .next t → r ∉ destRegs i → ¬(writesFlag i = true ∧ r = vf) →
    t.readV r = s.readV r

/-- The value that the seven write to VF is 0 or 1, unless the result of 8xy5, 8xy6, 8xy7 or 8xyE replaces it because
`x = 0xF` (10_state.md R21, 43_alu.md R130). -/
def Obligations.FlagIsAlwaysZeroOrOne : Prop :=
  ∀ (i : Instr) (s t : State), s.status = .running → exec i s = .next t → t.status = .running → writesFlag i = true →
    (vf ∉ destRegs i ∨ ∃ x y, i = .addReg x y) → t.readV vf = 0 ∨ t.readV vf = 1

/-- I, the stack, memory, the framebuffer, DC, the keypad, DT, the parameters and the draw are each written only by the
instructions the spec names for them (10_state.md R22, R24 to R29, R5; that a row lists all its writes is the spec's choice
D9, log 10; the draw is the model's own, log 3). -/
def Obligations.EachPartIsWrittenOnlyByItsInstructions : Prop :=
  ∀ (i : Instr) (s t : State) (p : Part), exec i s = .next t → p ∉ writtenParts i → p.same s t

/-- The keypad is read by Ex9E, ExA1 and Fx0A alone, DT by Fx07 alone, and the random byte by Cxnn alone: with another
value there, any other instruction does the same and keeps that value, but for Fx15, which replaces DT: with another DT it
answers the very same state (10_state.md R28, R29, R43). The random byte's field is the model's own (log 3). -/
def Obligations.InputsAreReadOnlyByTheirInstructions : Prop :=
  ∀ (i : Instr) (s t : State), exec i s = .next t →
    ((∀ x, i ≠ .skp x ∧ i ≠ .sknp x ∧ i ≠ .ldVxK x) → ∀ k, exec i { s with keys := k } = .next { t with keys := k }) ∧
    ((∀ x nn, i ≠ .rnd x nn) → ∀ b, exec i { s with rnd := b } = .next { t with rnd := b }) ∧
    ((∀ x, i ≠ .ldVxDt x ∧ i ≠ .ldDtVx x) → ∀ d, exec i { s with dt := d } = .next { t with dt := d }) ∧
    ((∃ x, i = .ldDtVx x) → ∀ d, exec i { s with dt := d } = .next t)

/-- No program can tell what a stack entry not in use holds: two states that differ only there step to states that differ
only there, the step result included (10_state.md R24). -/
def Obligations.DeadStackEntriesAreUnobservable : Prop :=
  ∀ s t s' : State, sameUpToDeadEntries s t → step s = .next s' →
    ∃ t', step t = .next t' ∧ sameUpToDeadEntries s' t' ∧ t'.result = s'.result

/-- Bits that are decoded but ignored: `y` in 8xy6 and 8xyE and `x` in Fx18 change nothing, and the register of Bnnn is
V[0] whatever the top nibble of `nnn` (30_encoding.md R83). -/
def Obligations.IgnoredFieldsHaveNoEffect : Prop :=
  ∀ (s : State) (x y y' : Reg) (nnn : Addr12) (k : Reg) (b : Byte),
    exec (.shr x y) s = exec (.shr x y') s ∧ exec (.shl x y) s = exec (.shl x y') s ∧
    exec (.ldStVx x) s = exec (.ldStVx y) s ∧
    (k ≠ 0 → ∃ t u, exec (.jpV0 nnn) s = .next t ∧ exec (.jpV0 nnn) (s.writeV k b) = .next u ∧ u.pc = t.pc)

/-! ## Control transfer -/

/-- 1nnn, the word `0x1000 | nnn`: `pc <- zext_16(nnn)`, nothing else (40_flow.md R101). -/
def Obligations.JumpSetsPcToItsAddress : Prop :=
  ∀ (nnn : Addr12) (s : State), decode (ruleWordNNN 0x1000 nnn) = .ok (.jp nnn) ∧
    ∃ t, exec (.jp nnn) s = .next t ∧ t.pc.toNat = nnn.toNat ∧ frame [] [] s t

/-- Bnnn, the word `0xB000 | nnn`: pc is the sum of V[0] and `nnn`, which never wraps, nothing else changes (40_flow.md R103). -/
def Obligations.JumpWithOffsetAddsV0 : Prop :=
  ∀ (nnn : Addr12) (s : State), decode (ruleWordNNN 0xB000 nnn) = .ok (.jpV0 nnn) ∧
    ∃ t, exec (.jpV0 nnn) s = .next t ∧ t.pc.toNat = (s.readV 0).toNat + nnn.toNat ∧ frame [] [] s t

/-- 2nnn: with a free slot, the address after the call goes to `STK[SP]`, SP rises by one and `pc <- nnn`, every other
slot unchanged; with sixteen entries it raises StackOverflow and nothing else changes (40_flow.md R102; the latch, the info
and that nothing else changes are the spec's choices D2, D3, D4, log 1 and log 16; SP counting to sixteen is D19, log 18). -/
def Obligations.CallPushesTheReturnAddress : Prop :=
  ∀ (nnn : Addr12) (s : State),
    (s.sp.val < 16 → ∃ t, exec (.call nnn) s = .next t ∧ t.sp.val = s.sp.val + 1 ∧ t.pc.toNat = nnn.toNat ∧
      (∀ k : Fin 16, t.stk[k] = if k.val = s.sp.val then s.pc + 2 else s.stk[k]) ∧ frame [] [.stack] s t) ∧
    (s.sp.val = 16 → exec (.call nnn) s = .next { s with status := .faulted (.stackOverflow s.pc) })

/-- 00EE: with an entry in use, SP falls by one and pc is the entry that was on top, every slot keeping its value; with
none it raises StackUnderflow and nothing else changes (40_flow.md R100; the latch, the info and that nothing else changes
are the spec's choices D2, D3, D4, log 1 and log 16; that a popped slot keeps its value is D19, log 18). -/
def Obligations.ReturnPopsTheTopEntry : Prop :=
  ∀ s : State,
    (∀ k : Fin 16, s.sp.val = k.val + 1 → ∃ t, exec .ret s = .next t ∧ t.sp.val = k.val ∧ t.pc = s.stk[k] ∧
      t.stk = s.stk ∧ frame [] [.stack] s t) ∧
    (s.sp.val = 0 → exec .ret s = .next { s with status := .faulted (.stackUnderflow s.pc) })

/-- A call and then a return resume at the address after the call with the stack pointer as before (40_flow.md R100, R102;
the source's round trip, 95_test_vectors.md T3). Only the slot the call used and pc differ; that the slot stays is D19
(log 18). -/
def Obligations.CallThenReturnResumesAfterTheCall : Prop :=
  ∀ (nnn : Addr12) (s : State), s.sp.val < 16 →
    ∃ t u, exec (.call nnn) s = .next t ∧ exec .ret t = .next u ∧ u.pc = s.pc + 2 ∧ u.sp = s.sp ∧
      (∀ k : Fin 16, k.val ≠ s.sp.val → u.stk[k] = s.stk[k]) ∧ frame [] [.stack] s u

/-! ## Skips -/

/-- 3xnn and 4xnn skip on equality and inequality with the immediate and write only pc (41_skip.md R110, R111). -/
def Obligations.ImmediateSkipsCompare : Prop :=
  ∀ (x : Reg) (nn : Byte) (s : State),
    decode (ruleWordXNN 0x3000 x nn) = .ok (.seImm x nn) ∧ decode (ruleWordXNN 0x4000 x nn) = .ok (.sneImm x nn) ∧
    (∃ t, exec (.seImm x nn) s = .next t ∧ t.pc = s.pc + (if s.readV x = nn then 4 else 2) ∧ frame [] [] s t) ∧
    (∃ t, exec (.sneImm x nn) s = .next t ∧ t.pc = s.pc + (if s.readV x ≠ nn then 4 else 2) ∧ frame [] [] s t)

/-- 5xy0 and 9xy0 skip on equality and inequality of two registers and write only pc; another last nibble is a decode
fault (41_skip.md R112, R113; that the last nibble is checked is the spec's choice D10, log 11, 90_conflicts.md C3). -/
def Obligations.RegisterSkipsCompare : Prop :=
  ∀ (x y : Reg) (s : State),
    decode (ruleWordXY 0x5000 x y) = .ok (.seReg x y) ∧ decode (ruleWordXY 0x9000 x y) = .ok (.sneReg x y) ∧
    (∀ n : Fin 16, n ≠ 0 → decode (ruleWordXYN 0x5000 x y n) = .error (.family5 n) ∧
      decode (ruleWordXYN 0x9000 x y n) = .error (.family9 n)) ∧
    (∃ t, exec (.seReg x y) s = .next t ∧ t.pc = s.pc + (if s.readV x = s.readV y then 4 else 2) ∧ frame [] [] s t) ∧
    (∃ t, exec (.sneReg x y) s = .next t ∧ t.pc = s.pc + (if s.readV x ≠ s.readV y then 4 else 2) ∧ frame [] [] s t)

/-- Ex9E and ExA1 test the key whose index is the value of V[x] and write only pc; a value above 15 raises
KeyIndex and nothing else changes (41_skip.md R114, R115; KeyIndex is the spec's choice D14, log 14; the latch, its info and
that nothing else changes are D2, D3, D4, log 1 and log 16). -/
def Obligations.KeySkipsTestTheNamedKey : Prop :=
  ∀ (x : Reg) (s : State),
    (∀ k : Fin 16, (s.readV x).toNat = k.val →
      (∃ t, exec (.skp x) s = .next t ∧ t.pc = s.pc + (if s.keys[k] = true then 4 else 2) ∧ frame [] [] s t) ∧
      (∃ t, exec (.sknp x) s = .next t ∧ t.pc = s.pc + (if s.keys[k] = false then 4 else 2) ∧ frame [] [] s t)) ∧
    (15 < (s.readV x).toNat →
      exec (.skp x) s = .next { s with status := .faulted (.keyIndex (s.readV x)) } ∧
      exec (.sknp x) s = .next { s with status := .faulted (.keyIndex (s.readV x)) })

/-! ## Immediate loads and add -/

/-- 6xnn: `V[x] <- nn` and `pc <- pc + 2`, nothing else (42_const.md R120). -/
def Obligations.LoadImmediateWritesTheByte : Prop :=
  ∀ (x : Reg) (nn : Byte) (s : State),
    decode (ruleWordXNN 0x6000 x nn) = .ok (.ldImm x nn) ∧
    ∃ t, exec (.ldImm x nn) s = .next t ∧ t.readV x = nn ∧ t.pc = s.pc + 2 ∧ frame [x] [] s t

/-- 7xnn: `V[x] <- (V[x] + nn) mod 256` and `pc <- pc + 2`, VF and all else unchanged (42_const.md R121). -/
def Obligations.AddImmediateWrapsWithoutFlag : Prop :=
  ∀ (x : Reg) (nn : Byte) (s : State),
    decode (ruleWordXNN 0x7000 x nn) = .ok (.addImm x nn) ∧
    ∃ t, exec (.addImm x nn) s = .next t ∧ (t.readV x).toNat = ((s.readV x).toNat + nn.toNat) % 256 ∧
      t.pc = s.pc + 2 ∧ frame [x] [] s t

/-- Annn: `I <- zext_16(nnn)` and `pc <- pc + 2`, nothing else (42_const.md R122). -/
def Obligations.LoadIndexWritesTheAddress : Prop :=
  ∀ (nnn : Addr12) (s : State),
    decode (ruleWordNNN 0xA000 nnn) = .ok (.ldI nnn) ∧
    ∃ t, exec (.ldI nnn) s = .next t ∧ t.i.toNat = nnn.toNat ∧ t.pc = s.pc + 2 ∧ frame [] [.index] s t

/-- Cxnn: `V[x] <- rnd AND nn`, so every bit that is 0 in `nn` is 0 in the result and the result is at most `nn`. The
byte is the one the host presents, whichever that is, and a free one where it presents none. Through the host: `Step(b)` of
a running machine with Cxnn at pc writes `b AND nn` and leaves no byte behind (42_const.md R123, 10_state.md R43; the
draw's form is the model's own, log 3). -/
def Obligations.RandomByteIsMasked : Prop :=
  ∀ (x : Reg) (nn : Byte) (s : State),
    ∃ t, exec (.rnd x nn) s = .next t ∧ t.pc = s.pc + 2 ∧ (∀ b, s.rnd = some b → t.readV x = b &&& nn) ∧
      (s.rnd = none → t.readV x = Config.freeByte s.draws &&& nn) ∧
      (∀ k, nn.getLsbD k = false → (t.readV x).getLsbD k = false) ∧ (t.readV x).toNat ≤ nn.toNat ∧
      t.rnd = none ∧ t.draws = s.draws + 1 ∧ frame [x] [.draw] s t ∧
      ∀ b, s.status = .running → s.pc.toNat ≤ 0xFFE →
        decode (s.mem.read s.pc.toNat ++ s.mem.read (s.pc.toNat + 1)) = .ok (.rnd x nn) →
        ∃ u, applyOp (.step b) s = .next u ∧ u.readV x = b &&& nn ∧ u.pc = s.pc + 2 ∧ u.rnd = none

/-! ## ALU -/

/-- 8xy0: `V[x] <- V[y]` and `pc <- pc + 2`, nothing else (43_alu.md R131; that VF is not written is the spec's choice D9,
log 10). -/
def Obligations.CopyRegister : Prop :=
  ∀ (x y : Reg) (s : State),
    decode (ruleWordXY 0x8000 x y) = .ok (.ldReg x y) ∧
    ∃ t, exec (.ldReg x y) s = .next t ∧ t.readV x = s.readV y ∧ t.pc = s.pc + 2 ∧ frame [x] [] s t

/-- 8xy1, 8xy2, 8xy3: OR, AND, XOR bit by bit on 8 bits into V[x], VF and all else unchanged (43_alu.md R132, R133, R134;
that VF is not reset is the spec's choice D9). -/
def Obligations.LogicIsBitByBit : Prop :=
  ∀ (x y : Reg) (s : State),
    (∃ t, exec (.orReg x y) s = .next t ∧
      (∀ k, (t.readV x).getLsbD k = ((s.readV x).getLsbD k || (s.readV y).getLsbD k)) ∧
      t.pc = s.pc + 2 ∧ frame [x] [] s t) ∧
    (∃ t, exec (.andReg x y) s = .next t ∧
      (∀ k, (t.readV x).getLsbD k = ((s.readV x).getLsbD k && (s.readV y).getLsbD k)) ∧
      t.pc = s.pc + 2 ∧ frame [x] [] s t) ∧
    (∃ t, exec (.xorReg x y) s = .next t ∧
      (∀ k, (t.readV x).getLsbD k = xor ((s.readV x).getLsbD k) ((s.readV y).getLsbD k)) ∧
      t.pc = s.pc + 2 ∧ frame [x] [] s t)

/-- 8xy4: the sum modulo 256 to V[x], then VF is 1 if the sum exceeds 255, else 0; with `x = 0xF` VF holds the carry
(43_alu.md R135). -/
def Obligations.AddSetsCarry : Prop :=
  ∀ (x y : Reg) (s : State),
    decode (ruleWordXY 0x8004 x y) = .ok (.addReg x y) ∧
    ∃ t, exec (.addReg x y) s = .next t ∧ t.pc = s.pc + 2 ∧
      t.readV vf = (if (s.readV x).toNat + (s.readV y).toNat > 255 then 1 else 0) ∧
      (x ≠ vf → (t.readV x).toNat = ((s.readV x).toNat + (s.readV y).toNat) % 256) ∧ frame [x, vf] [] s t

/-- 8xy5 and 8xy7: VF is 1 when the minuend is at least the subtrahend, then the difference modulo 256 to V[x]; with
`x = 0xF` VF holds the difference (43_alu.md R136, R138; the values when VF is an operand are the spec's choice D8). -/
def Obligations.SubtractionsSetNoBorrow : Prop :=
  ∀ (x y : Reg) (s : State),
    (∃ t, exec (.subReg x y) s = .next t ∧ t.pc = s.pc + 2 ∧
      (t.readV x).toNat = (256 + (s.readV x).toNat - (s.readV y).toNat) % 256 ∧
      (x ≠ vf → t.readV vf = if (s.readV x).toNat ≥ (s.readV y).toNat then 1 else 0) ∧ frame [x, vf] [] s t) ∧
    (∃ t, exec (.subnReg x y) s = .next t ∧ t.pc = s.pc + 2 ∧
      (t.readV x).toNat = (256 + (s.readV y).toNat - (s.readV x).toNat) % 256 ∧
      (x ≠ vf → t.readV vf = if (s.readV y).toNat ≥ (s.readV x).toNat then 1 else 0) ∧ frame [x, vf] [] s t)

/-- 8xy6 and 8xyE: VF is the bit shifted out, then V[x] is the old value div 2, or times 2 modulo 256; with `x = 0xF` VF
holds the result (43_alu.md R137, R139; the values when `x = 0xF` are the spec's choice D8). -/
def Obligations.ShiftsMoveOnePlace : Prop :=
  ∀ (x y : Reg) (s : State),
    (∃ t, exec (.shr x y) s = .next t ∧ t.pc = s.pc + 2 ∧ (t.readV x).toNat = (s.readV x).toNat / 2 ∧
      (x ≠ vf → (t.readV vf).toNat = (s.readV x).toNat % 2) ∧ frame [x, vf] [] s t) ∧
    (∃ t, exec (.shl x y) s = .next t ∧ t.pc = s.pc + 2 ∧ (t.readV x).toNat = (s.readV x).toNat * 2 % 256 ∧
      (x ≠ vf → (t.readV vf).toNat = (s.readV x).toNat / 128) ∧ frame [x, vf] [] s t)

/-! ## Display -/

/-- 00E0: every pixel 0 and `DC <- 1`, VF and all else unchanged (44_display.md R150). -/
def Obligations.ClearScreenClearsEveryPixel : Prop :=
  ∀ s : State, decode 0x00E0 = .ok .cls ∧
    ∃ t, exec .cls s = .next t ∧ (∀ row col, t.fb.pixel row col = false) ∧ t.dc = true ∧
    t.pc = s.pc + 2 ∧ frame [] [.framebuffer, .displayChanged] s t

/-- Dxyn, when its sprite lies in memory or `n = 0`: a pixel changes exactly where a sprite bit that is 1 lands, with
wraparound, VF is 1 exactly if one landed on a pixel that was 1, `DC <- 1`, and nothing else changes (44_display.md R151;
that VF as a coordinate is its old value is the spec's choice D8). -/
def Obligations.DrawTogglesWhereSpriteBitsLand : Prop :=
  ∀ (x y : Reg) (n : Fin 16) (s : State), (n.val = 0 ∨ s.i.toNat + (n.val - 1) ≤ 0xFFF) →
    ∃ t, exec (.drw x y n) s = .next t ∧ t.pc = s.pc + 2 ∧ t.dc = true ∧
      (∀ row col, t.fb.pixel row col ≠ s.fb.pixel row col ↔ spriteBit s x y n row col) ∧
      (t.readV vf = 1 ∨ t.readV vf = 0) ∧
      (t.readV vf = 1 ↔ ∃ row col, s.fb.pixel row col = true ∧ spriteBit s x y n row col) ∧
      frame [vf] [.framebuffer, .displayChanged] s t

/-- The 64-bit row datapath of the model computes what the two loops of the rule compute, pixel by pixel, framebuffer and
collision both (44_display.md R151, R152: "This form and the loop of rule R151 compute the same thing"). -/
def Obligations.DrawDatapathRefinesThePixelLoop : Prop :=
  ∀ (x y : Reg) (n : Fin 16) (s : State), (n.val = 0 ∨ s.i.toNat + (n.val - 1) ≤ 0xFFF) →
    ∃ t, exec (.drw x y n) s = .next t ∧ (∀ row col, t.fb.pixel row col = (drawLoop s x y n).1 row col) ∧
      t.readV vf = if (drawLoop s x y n).2 = true then 1 else 0

/-- Drawing the same sprite at the same place twice restores the framebuffer; if the first draw met no pixel that was on
and the sprite has a bit that is 1, the second reports a collision (44_display.md R151 (h); VF names no coordinate here,
since the first draw writes it). -/
def Obligations.DrawingTwiceRestoresTheFramebuffer : Prop :=
  ∀ (x y : Reg) (n : Fin 16) (s : State), x ≠ vf → y ≠ vf → (n.val = 0 ∨ s.i.toNat + (n.val - 1) ≤ 0xFFF) →
    ∃ t u, exec (.drw x y n) s = .next t ∧ exec (.drw x y n) t = .next u ∧ u.fb = s.fb ∧
      (t.readV vf = 0 → (∃ r, r < n.val ∧ s.mem.read (s.i.toNat + r) ≠ 0) → u.readV vf = 1)

/-! ## Timer and keypad -/

/-- Fx07: `V[x] <- DT` and `pc <- pc + 2`, DT and all else unchanged (45_timer_key.md R160). -/
def Obligations.ReadDelayTimer : Prop :=
  ∀ (x : Reg) (s : State),
    ∃ t, exec (.ldVxDt x) s = .next t ∧ t.readV x = s.dt ∧ t.pc = s.pc + 2 ∧ frame [x] [] s t

/-- Fx0A samples the keypad once: with a key pressed V[x] is the least index of one, with none V[x] is unchanged, and pc
advances by 2 either way (45_timer_key.md R161). -/
def Obligations.KeypadIsSampledWithoutWaiting : Prop :=
  ∀ (x : Reg) (s : State), decode (ruleWordX 0xF00A x) = .ok (.ldVxK x) ∧
    ∃ t, exec (.ldVxK x) s = .next t ∧ t.pc = s.pc + 2 ∧ frame [x] [] s t ∧
    (∀ k : Fin 16, s.keys[k] = true → (∀ j : Fin 16, j < k → s.keys[j] = false) → (t.readV x).toNat = k.val) ∧
    ((∀ k : Fin 16, s.keys[k] = false) → t.readV x = s.readV x)

/-- Fx15: `DT <- V[x]` and `pc <- pc + 2`, nothing else (45_timer_key.md R162). -/
def Obligations.WriteDelayTimer : Prop :=
  ∀ (x : Reg) (s : State),
    decode (ruleWordX 0xF015 x) = .ok (.ldDtVx x) ∧
    ∃ t, exec (.ldDtVx x) s = .next t ∧ t.dt = s.readV x ∧ t.pc = s.pc + 2 ∧ frame [] [.delayTimer] s t

/-- Fx18 is recognised and nothing but pc changes (45_timer_key.md R163; no sound-timer state, the spec's choice D16). -/
def Obligations.SoundTimerOpcodeOnlyAdvances : Prop :=
  ∀ (x : Reg) (s : State), ∃ t, exec (.ldStVx x) s = .next t ∧ t.pc = s.pc + 2 ∧ frame [] [] s t

/-! ## Index and memory -/

/-- Fx1E: `I <- (I + V[x]) mod 65536`, then VF is 1 if the new I is above FX1E_THRESHOLD, whatever that is, else 0
(46_index_mem.md R170; strict comparison and 16-bit wrap are the spec's choices D12, D13). -/
def Obligations.AddToIndexSetsOverflow : Prop :=
  ∀ (x : Reg) (s : State),
    ∃ t, exec (.addI x) s = .next t ∧ t.i.toNat = (s.i.toNat + (s.readV x).toNat) % 65536 ∧
      t.readV vf = (if t.i.toNat > s.fx1eThreshold then 1 else 0) ∧ t.pc = s.pc + 2 ∧ frame [vf] [.index] s t

/-- Fx29: `I <- V[x] * 5` with no masking and `pc <- pc + 2`, nothing else (46_index_mem.md R171). -/
def Obligations.GlyphAddressIsFiveTimesTheDigit : Prop :=
  ∀ (x : Reg) (s : State),
    decode (ruleWordX 0xF029 x) = .ok (.ldF x) ∧
    ∃ t, exec (.ldF x) s = .next t ∧ t.i.toNat = (s.readV x).toNat * 5 ∧ t.pc = s.pc + 2 ∧ frame [] [.index] s t

/-- Fx33, when `I + 2 <= 0xFFF`: hundreds, tens and ones at I, I+1, I+2, every other byte, all registers and I unchanged
(46_index_mem.md R172; I unchanged is the spec's choice D9, log 10, the bounds policy D17, log 16). -/
def Obligations.DecimalDigitsAreStored : Prop :=
  ∀ (x : Reg) (s : State), s.i.toNat + 2 ≤ 0xFFF →
    ∃ t, exec (.ldB x) s = .next t ∧
      (t.mem.read s.i.toNat).toNat = (s.readV x).toNat / 100 ∧
      (t.mem.read (s.i.toNat + 1)).toNat = (s.readV x).toNat / 10 % 10 ∧
      (t.mem.read (s.i.toNat + 2)).toNat = (s.readV x).toNat % 10 ∧
      (∀ a, a < s.i.toNat ∨ s.i.toNat + 2 < a → t.mem.read a = s.mem.read a) ∧
      t.pc = s.pc + 2 ∧ frame [] [.memory] s t

/-- Fx55, when `I + x <= 0xFFF`: V[0] to V[x] at I on, every other byte, all registers and I unchanged
(46_index_mem.md R173; the bound is the index `x`, 90_conflicts.md C2; I unchanged is D9, the bounds policy D17). -/
def Obligations.RegistersAreDumped : Prop :=
  ∀ (x : Reg) (s : State), s.i.toNat + x.val ≤ 0xFFF →
    ∃ t, exec (.storeRegs x) s = .next t ∧ (∀ k : Reg, k ≤ x → t.mem.read (s.i.toNat + k.val) = s.readV k) ∧
      (∀ a, a < s.i.toNat ∨ s.i.toNat + x.val < a → t.mem.read a = s.mem.read a) ∧
      t.pc = s.pc + 2 ∧ frame [] [.memory] s t

/-- Fx65, when `I + x <= 0xFFF`: V[k] is the byte at I + k for `k` in `0..x`, registers above `x`, memory and I unchanged
(46_index_mem.md R174; C2; I unchanged is D9, the bounds policy D17). -/
def Obligations.RegistersAreLoaded : Prop :=
  ∀ (x : Reg) (s : State), s.i.toNat + x.val ≤ 0xFFF →
    ∃ t, exec (.loadRegs x) s = .next t ∧ (∀ k : Reg, k ≤ x → t.readV k = s.mem.read (s.i.toNat + k.val)) ∧
      t.pc = s.pc + 2 ∧ frame ((List.finRange 16).filter fun k => k ≤ x) [] s t

/-- The round trip: after Fx55, whatever is done to the registers, Fx65 at the same I brings V[0] to V[x] back
(46_index_mem.md R173, R174; the source's test, 95_test_vectors.md T7). -/
def Obligations.DumpThenLoadBringsRegistersBack : Prop :=
  ∀ (x : Reg) (s : State) (v : Vector Byte 16), s.i.toNat + x.val ≤ 0xFFF →
    ∃ t u, exec (.storeRegs x) s = .next t ∧ exec (.loadRegs x) (t.writeRegs v) = .next u ∧
      ∀ k : Reg, if k ≤ x then u.readV k = s.readV k else u.readV k = v[k]

/-- A program may overwrite its own code: when Fx55 stores V[k] and V[k+1] over the two bytes after itself, the very next
fetch is of the word made of them (20_memory.md R63; the spec's choice D18, log 17). -/
def Obligations.StoredCodeIsFetchedNext : Prop :=
  ∀ (x k : Reg) (h : k.val + 1 < 16) (s t : State), s.pc.toNat ≤ 0xFFC → s.i.toNat + x.val ≤ 0xFFF → k.val + 1 ≤ x.val →
    s.i.toNat + k.val = s.pc.toNat + 2 → exec (.storeRegs x) s = .next t →
    t.fetch = some (s.readV k ++ s.readV ⟨k.val + 1, h⟩)

/-! ## Reset and the host -/

/-- Every piece of state after reset (10_state.md R33, 70_reset_and_hazards.md R200): pc and the font's place are the
source's, the zeros are the spec's choice D5 (log 7), Running its choice D2; FONT is any parameter. -/
def Obligations.ResetLeavesTheTable : Prop :=
  ∀ (font : Config.Font) (threshold : Nat) (s : State), s = State.resetWith font threshold →
    s.pc = 0x0200 ∧ (∀ (d : Fin 16) (k : Fin 5), s.mem.read (5 * d.val + k.val) = (font[d])[k]) ∧
    (∀ a, 80 ≤ a → s.mem.read a = 0) ∧ (∀ r, s.readV r = 0) ∧ s.i = 0 ∧ s.sp = 0 ∧
    (∀ k : Fin 16, s.stk[k] = 0) ∧ (∀ row col, s.fb.pixel row col = false) ∧ s.dc = false ∧
    (∀ k : Fin 16, s.keys[k] = false) ∧ s.dt = 0 ∧ s.status = .running

/-- `LoadByte` stores its byte at an address of the program area and changes nothing else; elsewhere it is refused. A ROM of
at most 3584 bytes is loaded byte `k` to `0x200 + k`, changing nothing else; a longer one is refused (10_state.md R41; the
ranges and the refusals are the spec's choice D20, log 19, 93_implementation_defined.md U17). -/
def Obligations.LoadByteStoresInTheProgramAreaOnly : Prop :=
  ∀ (addr : Nat) (val : Byte) (s : State),
    (0x200 ≤ addr → addr ≤ 0xFFF → ∃ t, applyOp (.loadByte addr val) s = .next t ∧
      (∀ a, t.mem.read a = if a = addr then val else s.mem.read a) ∧ t.pc = s.pc ∧ frame [] [.memory] s t) ∧
    (addr < 0x200 ∨ 0xFFF < addr → applyOp (.loadByte addr val) s = .refused (.loadOutsideProgramArea addr)) ∧
    ∀ rom : List Byte,
      (rom.length ≤ 3584 → ∃ t, s.loadRom rom = .next t ∧ (∀ k, (h : k < rom.length) → t.mem.read (0x200 + k) = rom[k]) ∧
        (∀ a, a < 0x200 ∨ 0x200 + rom.length ≤ a → t.mem.read a = s.mem.read a) ∧ t.pc = s.pc ∧ frame [] [.memory] s t) ∧
      (3584 < rom.length → s.loadRom rom = .refused (.romTooLong rom.length))

/-- `SetKeypad` writes the keypad, `Tick` takes 1 from DT unless it is 0, `ClearDC` clears DC, `ReadDisplay` returns FB and
DC and changes nothing; nothing else changes, pc included, in every STATUS. `Step(b)` is the step with byte `b` presented
before it and taken back after it (10_state.md R42 to R46; `Tick` at 0 and "every STATUS" are the spec's choices D7, D21,
log 21 and log 20; how `b` is presented is the model's own, log 3). -/
def Obligations.HostOperationsDoOnlyTheirJob : Prop :=
  ∀ (s : State) (k : Vector Bool 16),
    (∃ t, applyOp (.setKeypad k) s = .next t ∧ (∀ j : Fin 16, t.keys[j] = k[j]) ∧ t.pc = s.pc ∧ frame [] [.keypad] s t) ∧
    (∃ t, applyOp .tick s = .next t ∧ t.dt.toNat = s.dt.toNat - 1 ∧ t.pc = s.pc ∧ frame [] [.delayTimer] s t) ∧
    (∃ t, applyOp .clearDC s = .next t ∧ t.dc = false ∧ t.pc = s.pc ∧ frame [] [.displayChanged] s t) ∧
    applyOp .readDisplay s = .next s ∧ s.readDisplay = (s.fb, s.dc) ∧
    ∀ b t, step { s with rnd := some b } = .next t → applyOp (.step b) s = .next { t with rnd := none }

/-- Out of `Ended` and `Faulted` there is no way but `Reset`: every other operation leaves STATUS latched. `Reset`, in any
STATUS, gives the running reset state (10_state.md R40, 60_exceptions.md R187; the latch is the spec's choice D2, log 1, the
reset zeros D5, log 7; that the parameters and the count of draws are kept is the model's own, log 4). -/
def Obligations.OnlyResetLeavesAStop : Prop :=
  ∀ s : State,
    (s.status ≠ .running → ∀ op t, op ≠ .reset → applyOp op s = .next t → t.status = s.status) ∧
    (∃ t, applyOp .reset s = .next t ∧ t = { State.resetWith s.mem.font s.fx1eThreshold with draws := s.draws } ∧
      t.status = .running)

/-- After `withFetchWord` the very next step runs that word, from every state (log 26; the model's own placement). -/
def Obligations.PlacedWordIsRunByTheNextStep : Prop :=
  ∀ (s : State) (w : Word) (i : Instr), decode w = .ok i →
    decodeTableWord 16 w.toNat = some i ∧
    ∃ t, exec i (s.withFetchWord 16 w.toNat) = .next t ∧
      step (s.withFetchWord 16 w.toNat) =
        .next (if t.status = .running ∧ t.pc.toNat + 1 > 0xFFF then { t with status := .ended } else t)
end

