-- ==== Sys2Proof/Laws/Decode.lean ====
section
/-! SUPPORT. The fields of an encoded word, format by format, and a word as the word of its fields. -/

namespace Sys2Proof

@[simp] theorem indexOf_nibbleOf (x : Fin 16) : indexOf (nibbleOf x) = x := by
  ext; simp [indexOf, nibbleOf]

@[simp] theorem nibbleOf_indexOf (b : BitVec 4) : nibbleOf (indexOf b) = b := by
  simp [indexOf, nibbleOf]

section Formats

variable (f : BitVec 4) (x y n : Fin 16) (nn : Byte) (nnn : Addr12)

@[simp] theorem fields_encodeNNN_f : (fields (encodeNNN f nnn)).f = f := BitVec.extractLsb'_append_eq_left

@[simp] theorem fields_encodeNNN_nnn : (fields (encodeNNN f nnn)).nnn = nnn := BitVec.extractLsb'_append_eq_right

@[simp] theorem fields_encodeXNN_f : (fields (encodeXNN f x nn)).f = f := BitVec.extractLsb'_append_eq_left

/-- The bits of a word in format `XNN`. -/
theorem encodeXNN_getLsbD (k : Nat) : (encodeXNN f x nn).getLsbD k =
    if k < 8 then nn.getLsbD k else if k < 12 then (nibbleOf x).getLsbD (k - 8) else f.getLsbD (k - 12) := by
  refine (BitVec.getLsbD_append (x := f) (y := nibbleOf x ++ nn)).trans ?_
  rw [BitVec.getLsbD_append]
  by_cases h8 : k < 8
  · simp [h8, show k < 12 by omega]
  · by_cases h12 : k < 12 <;> simp [h8, h12]

@[simp] theorem fields_encodeXNN_nn : (fields (encodeXNN f x nn)).nn = nn := by
  apply BitVec.eq_of_getLsbD_eq
  intro k hk
  simp [fields, encodeXNN_getLsbD, hk]

@[simp] theorem fields_encodeXNN_x : (fields (encodeXNN f x nn)).x = x := by
  have h : (encodeXNN f x nn).extractLsb' 8 4 = nibbleOf x := by
    apply BitVec.eq_of_getLsbD_eq
    intro k hk
    simp [encodeXNN_getLsbD, hk, show 8 + k < 12 by omega]
  simp only [fields, h, indexOf_nibbleOf]

@[simp] theorem fields_encodeXYN_f : (fields (encodeXYN f x y n)).f = f := fields_encodeXNN_f ..

@[simp] theorem fields_encodeXYN_x : (fields (encodeXYN f x y n)).x = x := fields_encodeXNN_x ..

@[simp] theorem fields_encodeXYN_y : (fields (encodeXYN f x y n)).y = y := by
  have h : (encodeXYN f x y n).extractLsb' 4 4 = nibbleOf y := by
    apply BitVec.eq_of_getLsbD_eq
    intro k hk
    rw [BitVec.getLsbD_extractLsb', encodeXYN, encodeXNN_getLsbD, if_pos (by omega), BitVec.getLsbD_append]
    simp [hk]
  simp only [fields, h, indexOf_nibbleOf]

@[simp] theorem fields_encodeXYN_n : (fields (encodeXYN f x y n)).n = n := by
  have h : (encodeXYN f x y n).extractLsb' 0 4 = nibbleOf n := by
    apply BitVec.eq_of_getLsbD_eq
    intro k hk
    rw [BitVec.getLsbD_extractLsb', encodeXYN, encodeXNN_getLsbD, if_pos (by omega), BitVec.getLsbD_append]
    simp [hk]
  simp only [fields, h, indexOf_nibbleOf]

end Formats

/-! ## A word is the word of its fields -/

section OfFields

variable (w : Word)

@[simp] theorem encodeNNN_fields : encodeNNN (fields w).f (fields w).nnn = w := by
  apply BitVec.eq_of_getLsbD_eq
  intro k hk
  refine (BitVec.getLsbD_append (x := (fields w).f) (y := (fields w).nnn)).trans ?_
  by_cases h : k < 12
  · simp [h, fields]
  · simp [h, fields, show 12 + (k - 12) = k by omega, show k - 12 < 4 by omega]

@[simp] theorem encodeXNN_fields : encodeXNN (fields w).f (fields w).x (fields w).nn = w := by
  apply BitVec.eq_of_getLsbD_eq
  intro k hk
  rw [encodeXNN_getLsbD]
  by_cases h8 : k < 8
  · simp [h8, fields]
  · by_cases h12 : k < 12
    · simp [h8, h12, fields, show 8 + (k - 8) = k by omega, show k - 8 < 4 by omega]
    · simp [h8, h12, fields, show 12 + (k - 12) = k by omega, show k - 12 < 4 by omega]

/-- `nn = y ++ n` (30_encoding.md R72). -/
theorem nn_eq_append : (fields w).nn = nibbleOf (fields w).y ++ nibbleOf (fields w).n := by
  apply BitVec.eq_of_getLsbD_eq
  intro k hk
  rw [BitVec.getLsbD_append]
  by_cases h : k < 4
  · simp [h, fields, hk]
  · simp [h, fields, hk, show 4 + (k - 4) = k by omega, show k - 4 < 4 by omega]

@[simp] theorem encodeXYN_fields : encodeXYN (fields w).f (fields w).x (fields w).y (fields w).n = w := by
  rw [encodeXYN, ← nn_eq_append, encodeXNN_fields]

/-- The two bytes of a word, put together again, high byte first (20_memory.md R52). -/
@[simp] theorem bigEndian_bytes : bigEndian (w.extractLsb' 8 8) (w.extractLsb' 0 8) = w := by
  apply BitVec.eq_of_getLsbD_eq
  intro k hk
  refine (BitVec.getLsbD_append (x := w.extractLsb' 8 8) (y := w.extractLsb' 0 8)).trans ?_
  by_cases h : k < 8
  · simp [h]
  · simp [h, show 8 + (k - 8) = k by omega, show k - 8 < 8 by omega]

end OfFields

end Sys2Proof

/-! ## The words as the rules spell them (Safety.lean) -/

namespace Sys2Proof.Machine

theorem ofNat_index (x : Fin 16) : BitVec.ofNat 16 x.val = (nibbleOf x).setWidth 16 := by
  apply BitVec.eq_of_toNat_eq; simp [nibbleOf]

/-- `base | nnn` is format `NNN`. -/
theorem ruleWordNNN_eq (f : BitVec 4) (nnn : Addr12) : ruleWordNNN (f ++ (0 : BitVec 12)) nnn = encodeNNN f nnn := by
  refine BitVec.eq_of_getLsbD_eq fun k hk => ?_
  rw [ruleWordNNN, BitVec.getLsbD_or]
  have e : (encodeNNN f nnn).getLsbD k = if k < 12 then nnn.getLsbD k else f.getLsbD (k - 12) :=
    BitVec.getLsbD_append
  have e' : (f ++ (0 : BitVec 12) : Word).getLsbD k = if k < 12 then (0 : BitVec 12).getLsbD k else f.getLsbD (k - 12) :=
    BitVec.getLsbD_append
  rw [e, e']
  by_cases h : k < 12
  · simp [h, hk]
  · simp [h, BitVec.getLsbD_of_ge nnn k (by omega)]

/-- `base | x << 8 | nn` is format `XNN`. -/
theorem ruleWordXNN_eq (f : BitVec 4) (x : Reg) (nn : Byte) :
    ruleWordXNN (f ++ (0 : BitVec 12)) x nn = encodeXNN f x nn := by
  refine BitVec.eq_of_getLsbD_eq fun k hk => ?_
  have e' : (f ++ (0 : BitVec 12) : Word).getLsbD k = if k < 12 then (0 : BitVec 12).getLsbD k else f.getLsbD (k - 12) :=
    BitVec.getLsbD_append
  rw [ruleWordXNN, ruleWordX, ofNat_index, encodeXNN_getLsbD, BitVec.getLsbD_or, BitVec.getLsbD_or, e']
  by_cases h8 : k < 8
  · simp [h8, show k < 12 by omega, hk]
  · by_cases h12 : k < 12
    · simp [h8, h12, hk, BitVec.getLsbD_of_ge nn k (by omega)]
    · simp [h8, h12, hk, BitVec.getLsbD_of_ge nn k (by omega), BitVec.getLsbD_of_ge (nibbleOf x) (k - 8) (by omega)]

/-- `base | x << 8` with a literal low byte is format `X`. -/
theorem ruleWordX_eq (f : BitVec 4) (x : Reg) (nn : Byte) :
    ruleWordX (f ++ (nn.setWidth 12)) x = encodeXNN f x nn := by
  rw [← ruleWordXNN_eq, ruleWordXNN, ruleWordX, ruleWordX]
  refine BitVec.eq_of_getLsbD_eq fun k hk => ?_
  have e : (f ++ nn.setWidth 12 : Word).getLsbD k = if k < 12 then (nn.setWidth 12).getLsbD k else f.getLsbD (k - 12) :=
    BitVec.getLsbD_append
  have e' : (f ++ (0 : BitVec 12) : Word).getLsbD k = if k < 12 then (0 : BitVec 12).getLsbD k else f.getLsbD (k - 12) :=
    BitVec.getLsbD_append
  simp only [BitVec.getLsbD_or, e, e', BitVec.getLsbD_setWidth]
  by_cases h : k < 12
  · simp [h, hk, Bool.or_comm]
  · simp [h, BitVec.getLsbD_of_ge nn k (by omega)]

/-- `base | x << 8 | y << 4 | n` is format `XYN`. -/
theorem ruleWordXYN_eq (f : BitVec 4) (x y n : Fin 16) :
    ruleWordXYN (f ++ (0 : BitVec 12)) x y n = encodeXYN f x y n := by
  rw [encodeXYN, ← ruleWordXNN_eq, ruleWordXYN, ruleWordXY, ruleWordXNN, BitVec.or_assoc]
  congr 1
  refine BitVec.eq_of_getLsbD_eq fun k hk => ?_
  rw [ofNat_index, ofNat_index]
  simp only [BitVec.getLsbD_or, BitVec.getLsbD_setWidth, BitVec.getLsbD_append, BitVec.getLsbD_shiftLeft]
  by_cases h4 : k < 4
  · simp [h4, hk]
  · simp [h4, hk, BitVec.getLsbD_of_ge (nibbleOf n) k (by omega)]
    intro; omega

/-- `base | x << 8 | y << 4` with a literal last nibble is format `XY`. -/
theorem ruleWordXY_eq (f : BitVec 4) (x y n : Fin 16) :
    ruleWordXY (f ++ ((nibbleOf n).setWidth 12)) x y = encodeXYN f x y n := by
  have e : (f ++ (nibbleOf n).setWidth 12 : Word) = (f ++ (0 : BitVec 12)) ||| (nibbleOf n).setWidth 16 := by
    revert f n; decide
  rw [← ruleWordXYN_eq, ruleWordXYN, ruleWordXY, ruleWordXY, ruleWordX, ruleWordX, e, ofNat_index n]
  ac_rfl

end Sys2Proof.Machine
end

