-- ==== Sys2Proof/Laws/Memory.lean ====
section
/-! SUPPORT. Memory: a read after a write, a read after several, and that every memory operation keeps the canonical form. -/

namespace Sys2Proof.Machine

/-! ## The cell list -/

theorem findCell_insertCell (cs : List Host.Cell) (a b : Nat) (v : Byte) :
    findCell (insertCell cs a v) b = if b = a then some v else findCell cs b := by
  induction cs with
  | nil => simp [insertCell, findCell, eq_comm]
  | cons c cs ih =>
    obtain ⟨d, u⟩ := c
    simp only [insertCell]
    split
    · simp [findCell, eq_comm]
    · by_cases had : a = d
      · subst had
        by_cases hb : b = a
        · simp [findCell, hb]
        · simp [findCell, hb, Ne.symm hb]
      · rw [if_neg had]
        by_cases hb : d = b
        · subst hb; simp [findCell, Ne.symm had]
        · simp [findCell, hb, ih]

theorem findCell_eraseCell (cs : List Host.Cell) (a b : Nat) :
    findCell (eraseCell cs a) b = if b = a then none else findCell cs b := by
  induction cs with
  | nil => simp [eraseCell, findCell]
  | cons c cs ih =>
    obtain ⟨d, u⟩ := c
    simp only [eraseCell]
    split
    · subst d
      by_cases hb : b = a
      · rw [ih]; simp [hb]
      · simp [ih, findCell, hb, Ne.symm hb]
    · by_cases hb : d = b
      · subst hb; simp [findCell, *]
      · simp [findCell, hb, ih]

theorem mem_insertCell {cs : List Host.Cell} {a : Nat} {v : Byte} {c : Host.Cell} (h : c ∈ insertCell cs a v) :
    c = (a, v) ∨ c ∈ cs := by
  induction cs with
  | nil => simpa [insertCell] using h
  | cons d cs ih =>
    obtain ⟨d, u⟩ := d
    simp only [insertCell] at h
    split at h
    · simpa using h
    · split at h
      · rcases List.mem_cons.mp h with h | h <;> simp [h]
      · rcases List.mem_cons.mp h with h | h
        · simp [h]
        · rcases ih h with h | h <;> simp [h]

theorem mem_eraseCell {cs : List Host.Cell} {a : Nat} {c : Host.Cell} (h : c ∈ eraseCell cs a) : c ∈ cs := by
  induction cs with
  | nil => simp [eraseCell] at h
  | cons d cs ih =>
    obtain ⟨d, u⟩ := d
    simp only [eraseCell] at h
    split at h
    · exact List.mem_cons_of_mem _ (ih h)
    · rcases List.mem_cons.mp h with h | h
      · simp [h]
      · exact List.mem_cons_of_mem _ (ih h)

theorem insertCell_rising {cs : List Host.Cell} (h : cs.Pairwise (fun c d => c.1 < d.1)) (a : Nat) (v : Byte) :
    (insertCell cs a v).Pairwise (fun c d => c.1 < d.1) := by
  induction cs with
  | nil => simp [insertCell]
  | cons d cs ih =>
    obtain ⟨d, u⟩ := d
    rw [List.pairwise_cons] at h
    simp only [insertCell]
    split
    · rename_i had
      refine List.pairwise_cons.mpr ⟨fun c hc => ?_, List.pairwise_cons.mpr h⟩
      rcases List.mem_cons.mp hc with rfl | hc
      · exact had
      · exact had.trans (h.1 c hc)
    · split
      · subst d; exact List.pairwise_cons.mpr h
      · refine List.pairwise_cons.mpr ⟨fun c hc => ?_, ih h.2⟩
        rcases mem_insertCell hc with rfl | hc
        · show d < a; omega
        · exact h.1 c hc

theorem eraseCell_rising {cs : List Host.Cell} (h : cs.Pairwise (fun c d => c.1 < d.1)) (a : Nat) :
    (eraseCell cs a).Pairwise (fun c d => c.1 < d.1) := by
  induction cs with
  | nil => simp [eraseCell]
  | cons d cs ih =>
    obtain ⟨d, u⟩ := d
    rw [List.pairwise_cons] at h
    simp only [eraseCell]
    split
    · exact ih h.2
    · exact List.pairwise_cons.mpr ⟨fun c hc => h.1 c (mem_eraseCell hc), ih h.2⟩

/-! ## Memory -/

namespace Memory

@[simp] theorem write_font (m : Memory) (a : Nat) (v : Byte) : (m.write a v).font = m.font := by
  unfold write; split <;> rfl

@[simp] theorem write_background (m : Memory) (a b : Nat) (v : Byte) :
    (m.write a v).background b = m.background b := by simp [background]

/-- A read after a write: the byte written at its address, every other byte as before. -/
theorem read_write (m : Memory) (a b : Nat) (v : Byte) :
    (m.write a v).read b = if b = a then v else m.read b := by
  have hbg := m.write_background a b v
  simp only [read, hbg]
  unfold write
  split
  · simp only [findCell_eraseCell]; split <;> simp_all
  · simp only [findCell_insertCell]; split <;> simp_all

/-- A write inside memory keeps the canonical form. -/
theorem wf_write {m : Memory} (h : m.wf) {a : Nat} (ha : a < 4096) (v : Byte) : (m.write a v).wf := by
  refine ⟨?_, fun c hc => ?_⟩
  · unfold write; split
    · exact eraseCell_rising h.1 a
    · exact insertCell_rising h.1 a v
  · rw [write_background]
    unfold write at hc
    split at hc
    · exact h.2 c (mem_eraseCell hc)
    · rcases mem_insertCell hc with rfl | hc
      · exact ⟨ha, ‹_›⟩
      · exact h.2 c hc

@[simp] theorem writeBytes_font (m : Memory) (a : Nat) (bs : List Byte) : (m.writeBytes a bs).font = m.font := by
  induction bs generalizing m a with
  | nil => rfl
  | cons b bs ih => simp [writeBytes, ih]

/-- Bytes stored inside memory keep the canonical form. -/
theorem wf_writeBytes {m : Memory} (h : m.wf) {a : Nat} {bs : List Byte} (hb : a + bs.length ≤ 4096) :
    (m.writeBytes a bs).wf := by
  induction bs generalizing m a with
  | nil => exact h
  | cons b bs ih =>
    rw [List.length_cons] at hb
    exact ih (wf_write h (by omega) b) (by omega)

/-- A read after bytes stored at `a` on: the byte stored there, every byte outside as before. -/
theorem read_writeBytes (m : Memory) (a : Nat) (bs : List Byte) (b : Nat) :
    (m.writeBytes a bs).read b = if a ≤ b ∧ b < a + bs.length then bs.getD (b - a) 0 else m.read b := by
  induction bs generalizing m a with
  | nil => simp [writeBytes]
  | cons v bs ih =>
    rw [writeBytes, ih, read_write, List.length_cons]
    by_cases hab : b = a
    · subst hab; simp
    · by_cases hin : a + 1 ≤ b ∧ b < a + 1 + bs.length
      · rw [if_pos hin, if_pos (by omega), show b - a = b - (a + 1) + 1 by omega, List.getD_cons_succ]
      · rw [if_neg hin, if_neg hab, if_neg (by omega)]

end Memory

/-- Memory right after reset is in canonical form, whatever the font. -/
theorem reset_mem_wf (font : Config.Font) (threshold : Nat) : (State.resetWith font threshold).mem.wf := by
  simp [State.resetWith, Memory.wf]

end Sys2Proof.Machine
end

