-- ==== Sys2Proof/Laws/State.lean ====
section
/-! SUPPORT. One lemma per field per update of the state, true by rfl, so that no later proof unfolds a record update; then
the reads of a register after each update. -/

namespace Sys2Proof.Machine.State

variable (s : State)

/-! ### writeV -/

@[simp] theorem writeV_v (x : Reg) (b : Byte) : (s.writeV x b).v = s.v.set x b := rfl
@[simp] theorem writeV_i (x : Reg) (b : Byte) : (s.writeV x b).i = s.i := rfl
@[simp] theorem writeV_pc (x : Reg) (b : Byte) : (s.writeV x b).pc = s.pc := rfl
@[simp] theorem writeV_sp (x : Reg) (b : Byte) : (s.writeV x b).sp = s.sp := rfl
@[simp] theorem writeV_stk (x : Reg) (b : Byte) : (s.writeV x b).stk = s.stk := rfl
@[simp] theorem writeV_mem (x : Reg) (b : Byte) : (s.writeV x b).mem = s.mem := rfl
@[simp] theorem writeV_fb (x : Reg) (b : Byte) : (s.writeV x b).fb = s.fb := rfl
@[simp] theorem writeV_dc (x : Reg) (b : Byte) : (s.writeV x b).dc = s.dc := rfl
@[simp] theorem writeV_keys (x : Reg) (b : Byte) : (s.writeV x b).keys = s.keys := rfl
@[simp] theorem writeV_dt (x : Reg) (b : Byte) : (s.writeV x b).dt = s.dt := rfl
@[simp] theorem writeV_status (x : Reg) (b : Byte) : (s.writeV x b).status = s.status := rfl
@[simp] theorem writeV_fx1eThreshold (x : Reg) (b : Byte) : (s.writeV x b).fx1eThreshold = s.fx1eThreshold := rfl
@[simp] theorem writeV_rnd (x : Reg) (b : Byte) : (s.writeV x b).rnd = s.rnd := rfl
@[simp] theorem writeV_draws (x : Reg) (b : Byte) : (s.writeV x b).draws = s.draws := rfl

/-! ### writeRegs -/

@[simp] theorem writeRegs_v (w : Vector Byte 16) : (s.writeRegs w).v = w := rfl
@[simp] theorem writeRegs_i (w : Vector Byte 16) : (s.writeRegs w).i = s.i := rfl
@[simp] theorem writeRegs_pc (w : Vector Byte 16) : (s.writeRegs w).pc = s.pc := rfl
@[simp] theorem writeRegs_sp (w : Vector Byte 16) : (s.writeRegs w).sp = s.sp := rfl
@[simp] theorem writeRegs_stk (w : Vector Byte 16) : (s.writeRegs w).stk = s.stk := rfl
@[simp] theorem writeRegs_mem (w : Vector Byte 16) : (s.writeRegs w).mem = s.mem := rfl
@[simp] theorem writeRegs_fb (w : Vector Byte 16) : (s.writeRegs w).fb = s.fb := rfl
@[simp] theorem writeRegs_dc (w : Vector Byte 16) : (s.writeRegs w).dc = s.dc := rfl
@[simp] theorem writeRegs_keys (w : Vector Byte 16) : (s.writeRegs w).keys = s.keys := rfl
@[simp] theorem writeRegs_dt (w : Vector Byte 16) : (s.writeRegs w).dt = s.dt := rfl
@[simp] theorem writeRegs_status (w : Vector Byte 16) : (s.writeRegs w).status = s.status := rfl
@[simp] theorem writeRegs_fx1eThreshold (w : Vector Byte 16) : (s.writeRegs w).fx1eThreshold = s.fx1eThreshold := rfl
@[simp] theorem writeRegs_rnd (w : Vector Byte 16) : (s.writeRegs w).rnd = s.rnd := rfl
@[simp] theorem writeRegs_draws (w : Vector Byte 16) : (s.writeRegs w).draws = s.draws := rfl

/-! ### writeI -/

@[simp] theorem writeI_v (w : Word) : (s.writeI w).v = s.v := rfl
@[simp] theorem writeI_i (w : Word) : (s.writeI w).i = w := rfl
@[simp] theorem writeI_pc (w : Word) : (s.writeI w).pc = s.pc := rfl
@[simp] theorem writeI_sp (w : Word) : (s.writeI w).sp = s.sp := rfl
@[simp] theorem writeI_stk (w : Word) : (s.writeI w).stk = s.stk := rfl
@[simp] theorem writeI_mem (w : Word) : (s.writeI w).mem = s.mem := rfl
@[simp] theorem writeI_fb (w : Word) : (s.writeI w).fb = s.fb := rfl
@[simp] theorem writeI_dc (w : Word) : (s.writeI w).dc = s.dc := rfl
@[simp] theorem writeI_keys (w : Word) : (s.writeI w).keys = s.keys := rfl
@[simp] theorem writeI_dt (w : Word) : (s.writeI w).dt = s.dt := rfl
@[simp] theorem writeI_status (w : Word) : (s.writeI w).status = s.status := rfl
@[simp] theorem writeI_fx1eThreshold (w : Word) : (s.writeI w).fx1eThreshold = s.fx1eThreshold := rfl
@[simp] theorem writeI_rnd (w : Word) : (s.writeI w).rnd = s.rnd := rfl
@[simp] theorem writeI_draws (w : Word) : (s.writeI w).draws = s.draws := rfl
@[simp] theorem writeI_readV (w : Word) (r : Reg) : (s.writeI w).readV r = s.readV r := rfl

/-! ### writeDt -/

@[simp] theorem writeDt_v (b : Byte) : (s.writeDt b).v = s.v := rfl
@[simp] theorem writeDt_i (b : Byte) : (s.writeDt b).i = s.i := rfl
@[simp] theorem writeDt_pc (b : Byte) : (s.writeDt b).pc = s.pc := rfl
@[simp] theorem writeDt_sp (b : Byte) : (s.writeDt b).sp = s.sp := rfl
@[simp] theorem writeDt_stk (b : Byte) : (s.writeDt b).stk = s.stk := rfl
@[simp] theorem writeDt_mem (b : Byte) : (s.writeDt b).mem = s.mem := rfl
@[simp] theorem writeDt_fb (b : Byte) : (s.writeDt b).fb = s.fb := rfl
@[simp] theorem writeDt_dc (b : Byte) : (s.writeDt b).dc = s.dc := rfl
@[simp] theorem writeDt_keys (b : Byte) : (s.writeDt b).keys = s.keys := rfl
@[simp] theorem writeDt_dt (b : Byte) : (s.writeDt b).dt = b := rfl
@[simp] theorem writeDt_status (b : Byte) : (s.writeDt b).status = s.status := rfl
@[simp] theorem writeDt_fx1eThreshold (b : Byte) : (s.writeDt b).fx1eThreshold = s.fx1eThreshold := rfl
@[simp] theorem writeDt_rnd (b : Byte) : (s.writeDt b).rnd = s.rnd := rfl
@[simp] theorem writeDt_draws (b : Byte) : (s.writeDt b).draws = s.draws := rfl
@[simp] theorem writeDt_readV (b : Byte) (r : Reg) : (s.writeDt b).readV r = s.readV r := rfl

/-! ### writeMem -/

@[simp] theorem writeMem_v (m : Memory) : (s.writeMem m).v = s.v := rfl
@[simp] theorem writeMem_i (m : Memory) : (s.writeMem m).i = s.i := rfl
@[simp] theorem writeMem_pc (m : Memory) : (s.writeMem m).pc = s.pc := rfl
@[simp] theorem writeMem_sp (m : Memory) : (s.writeMem m).sp = s.sp := rfl
@[simp] theorem writeMem_stk (m : Memory) : (s.writeMem m).stk = s.stk := rfl
@[simp] theorem writeMem_mem (m : Memory) : (s.writeMem m).mem = m := rfl
@[simp] theorem writeMem_fb (m : Memory) : (s.writeMem m).fb = s.fb := rfl
@[simp] theorem writeMem_dc (m : Memory) : (s.writeMem m).dc = s.dc := rfl
@[simp] theorem writeMem_keys (m : Memory) : (s.writeMem m).keys = s.keys := rfl
@[simp] theorem writeMem_dt (m : Memory) : (s.writeMem m).dt = s.dt := rfl
@[simp] theorem writeMem_status (m : Memory) : (s.writeMem m).status = s.status := rfl
@[simp] theorem writeMem_fx1eThreshold (m : Memory) : (s.writeMem m).fx1eThreshold = s.fx1eThreshold := rfl
@[simp] theorem writeMem_rnd (m : Memory) : (s.writeMem m).rnd = s.rnd := rfl
@[simp] theorem writeMem_draws (m : Memory) : (s.writeMem m).draws = s.draws := rfl
@[simp] theorem writeMem_readV (m : Memory) (r : Reg) : (s.writeMem m).readV r = s.readV r := rfl

/-! ### advance -/

@[simp] theorem advance_v : (s.advance).v = s.v := rfl
@[simp] theorem advance_i : (s.advance).i = s.i := rfl
@[simp] theorem advance_pc : (s.advance).pc = s.pc + 2 := rfl
@[simp] theorem advance_sp : (s.advance).sp = s.sp := rfl
@[simp] theorem advance_stk : (s.advance).stk = s.stk := rfl
@[simp] theorem advance_mem : (s.advance).mem = s.mem := rfl
@[simp] theorem advance_fb : (s.advance).fb = s.fb := rfl
@[simp] theorem advance_dc : (s.advance).dc = s.dc := rfl
@[simp] theorem advance_keys : (s.advance).keys = s.keys := rfl
@[simp] theorem advance_dt : (s.advance).dt = s.dt := rfl
@[simp] theorem advance_status : (s.advance).status = s.status := rfl
@[simp] theorem advance_fx1eThreshold : (s.advance).fx1eThreshold = s.fx1eThreshold := rfl
@[simp] theorem advance_rnd : (s.advance).rnd = s.rnd := rfl
@[simp] theorem advance_draws : (s.advance).draws = s.draws := rfl
@[simp] theorem advance_readV (r : Reg) : (s.advance).readV r = s.readV r := rfl

/-! ### skip -/

@[simp] theorem skip_v : (s.skip).v = s.v := rfl
@[simp] theorem skip_i : (s.skip).i = s.i := rfl
@[simp] theorem skip_pc : (s.skip).pc = s.pc + 4 := rfl
@[simp] theorem skip_sp : (s.skip).sp = s.sp := rfl
@[simp] theorem skip_stk : (s.skip).stk = s.stk := rfl
@[simp] theorem skip_mem : (s.skip).mem = s.mem := rfl
@[simp] theorem skip_fb : (s.skip).fb = s.fb := rfl
@[simp] theorem skip_dc : (s.skip).dc = s.dc := rfl
@[simp] theorem skip_keys : (s.skip).keys = s.keys := rfl
@[simp] theorem skip_dt : (s.skip).dt = s.dt := rfl
@[simp] theorem skip_status : (s.skip).status = s.status := rfl
@[simp] theorem skip_fx1eThreshold : (s.skip).fx1eThreshold = s.fx1eThreshold := rfl
@[simp] theorem skip_rnd : (s.skip).rnd = s.rnd := rfl
@[simp] theorem skip_draws : (s.skip).draws = s.draws := rfl
@[simp] theorem skip_readV (r : Reg) : (s.skip).readV r = s.readV r := rfl

/-! ### jumpTo -/

@[simp] theorem jumpTo_v (w : Word) : (s.jumpTo w).v = s.v := rfl
@[simp] theorem jumpTo_i (w : Word) : (s.jumpTo w).i = s.i := rfl
@[simp] theorem jumpTo_pc (w : Word) : (s.jumpTo w).pc = w := rfl
@[simp] theorem jumpTo_sp (w : Word) : (s.jumpTo w).sp = s.sp := rfl
@[simp] theorem jumpTo_stk (w : Word) : (s.jumpTo w).stk = s.stk := rfl
@[simp] theorem jumpTo_mem (w : Word) : (s.jumpTo w).mem = s.mem := rfl
@[simp] theorem jumpTo_fb (w : Word) : (s.jumpTo w).fb = s.fb := rfl
@[simp] theorem jumpTo_dc (w : Word) : (s.jumpTo w).dc = s.dc := rfl
@[simp] theorem jumpTo_keys (w : Word) : (s.jumpTo w).keys = s.keys := rfl
@[simp] theorem jumpTo_dt (w : Word) : (s.jumpTo w).dt = s.dt := rfl
@[simp] theorem jumpTo_status (w : Word) : (s.jumpTo w).status = s.status := rfl
@[simp] theorem jumpTo_fx1eThreshold (w : Word) : (s.jumpTo w).fx1eThreshold = s.fx1eThreshold := rfl
@[simp] theorem jumpTo_rnd (w : Word) : (s.jumpTo w).rnd = s.rnd := rfl
@[simp] theorem jumpTo_draws (w : Word) : (s.jumpTo w).draws = s.draws := rfl
@[simp] theorem jumpTo_readV (w : Word) (r : Reg) : (s.jumpTo w).readV r = s.readV r := rfl

/-! ### push -/

@[simp] theorem push_v (w : Word) (h : s.sp.val < 16) : (s.push w h).v = s.v := rfl
@[simp] theorem push_i (w : Word) (h : s.sp.val < 16) : (s.push w h).i = s.i := rfl
@[simp] theorem push_pc (w : Word) (h : s.sp.val < 16) : (s.push w h).pc = s.pc := rfl
@[simp] theorem push_sp (w : Word) (h : s.sp.val < 16) : (s.push w h).sp = ⟨s.sp.val + 1, Nat.succ_lt_succ h⟩ := rfl
@[simp] theorem push_stk (w : Word) (h : s.sp.val < 16) : (s.push w h).stk = s.stk.set s.sp.val w h := rfl
@[simp] theorem push_mem (w : Word) (h : s.sp.val < 16) : (s.push w h).mem = s.mem := rfl
@[simp] theorem push_fb (w : Word) (h : s.sp.val < 16) : (s.push w h).fb = s.fb := rfl
@[simp] theorem push_dc (w : Word) (h : s.sp.val < 16) : (s.push w h).dc = s.dc := rfl
@[simp] theorem push_keys (w : Word) (h : s.sp.val < 16) : (s.push w h).keys = s.keys := rfl
@[simp] theorem push_dt (w : Word) (h : s.sp.val < 16) : (s.push w h).dt = s.dt := rfl
@[simp] theorem push_status (w : Word) (h : s.sp.val < 16) : (s.push w h).status = s.status := rfl
@[simp] theorem push_fx1eThreshold (w : Word) (h : s.sp.val < 16) : (s.push w h).fx1eThreshold = s.fx1eThreshold := rfl
@[simp] theorem push_rnd (w : Word) (h : s.sp.val < 16) : (s.push w h).rnd = s.rnd := rfl
@[simp] theorem push_draws (w : Word) (h : s.sp.val < 16) : (s.push w h).draws = s.draws := rfl
@[simp] theorem push_readV (w : Word) (h : s.sp.val < 16) (r : Reg) : (s.push w h).readV r = s.readV r := rfl

/-! ### pop -/

@[simp] theorem pop_v : (s.pop).v = s.v := rfl
@[simp] theorem pop_i : (s.pop).i = s.i := rfl
@[simp] theorem pop_pc : (s.pop).pc = s.pc := rfl
@[simp] theorem pop_sp : (s.pop).sp = ⟨s.sp.val - 1, by omega⟩ := rfl
@[simp] theorem pop_stk : (s.pop).stk = s.stk := rfl
@[simp] theorem pop_mem : (s.pop).mem = s.mem := rfl
@[simp] theorem pop_fb : (s.pop).fb = s.fb := rfl
@[simp] theorem pop_dc : (s.pop).dc = s.dc := rfl
@[simp] theorem pop_keys : (s.pop).keys = s.keys := rfl
@[simp] theorem pop_dt : (s.pop).dt = s.dt := rfl
@[simp] theorem pop_status : (s.pop).status = s.status := rfl
@[simp] theorem pop_fx1eThreshold : (s.pop).fx1eThreshold = s.fx1eThreshold := rfl
@[simp] theorem pop_rnd : (s.pop).rnd = s.rnd := rfl
@[simp] theorem pop_draws : (s.pop).draws = s.draws := rfl
@[simp] theorem pop_readV (r : Reg) : (s.pop).readV r = s.readV r := rfl

/-! ### display -/

@[simp] theorem display_v (g : Framebuffer) : (s.display g).v = s.v := rfl
@[simp] theorem display_i (g : Framebuffer) : (s.display g).i = s.i := rfl
@[simp] theorem display_pc (g : Framebuffer) : (s.display g).pc = s.pc := rfl
@[simp] theorem display_sp (g : Framebuffer) : (s.display g).sp = s.sp := rfl
@[simp] theorem display_stk (g : Framebuffer) : (s.display g).stk = s.stk := rfl
@[simp] theorem display_mem (g : Framebuffer) : (s.display g).mem = s.mem := rfl
@[simp] theorem display_fb (g : Framebuffer) : (s.display g).fb = g := rfl
@[simp] theorem display_dc (g : Framebuffer) : (s.display g).dc = true := rfl
@[simp] theorem display_keys (g : Framebuffer) : (s.display g).keys = s.keys := rfl
@[simp] theorem display_dt (g : Framebuffer) : (s.display g).dt = s.dt := rfl
@[simp] theorem display_status (g : Framebuffer) : (s.display g).status = s.status := rfl
@[simp] theorem display_fx1eThreshold (g : Framebuffer) : (s.display g).fx1eThreshold = s.fx1eThreshold := rfl
@[simp] theorem display_rnd (g : Framebuffer) : (s.display g).rnd = s.rnd := rfl
@[simp] theorem display_draws (g : Framebuffer) : (s.display g).draws = s.draws := rfl
@[simp] theorem display_readV (g : Framebuffer) (r : Reg) : (s.display g).readV r = s.readV r := rfl

/-! ### useDraw -/

@[simp] theorem useDraw_v : (s.useDraw).v = s.v := rfl
@[simp] theorem useDraw_i : (s.useDraw).i = s.i := rfl
@[simp] theorem useDraw_pc : (s.useDraw).pc = s.pc := rfl
@[simp] theorem useDraw_sp : (s.useDraw).sp = s.sp := rfl
@[simp] theorem useDraw_stk : (s.useDraw).stk = s.stk := rfl
@[simp] theorem useDraw_mem : (s.useDraw).mem = s.mem := rfl
@[simp] theorem useDraw_fb : (s.useDraw).fb = s.fb := rfl
@[simp] theorem useDraw_dc : (s.useDraw).dc = s.dc := rfl
@[simp] theorem useDraw_keys : (s.useDraw).keys = s.keys := rfl
@[simp] theorem useDraw_dt : (s.useDraw).dt = s.dt := rfl
@[simp] theorem useDraw_status : (s.useDraw).status = s.status := rfl
@[simp] theorem useDraw_fx1eThreshold : (s.useDraw).fx1eThreshold = s.fx1eThreshold := rfl
@[simp] theorem useDraw_rnd : (s.useDraw).rnd = none := rfl
@[simp] theorem useDraw_draws : (s.useDraw).draws = s.draws + 1 := rfl
@[simp] theorem useDraw_readV (r : Reg) : (s.useDraw).readV r = s.readV r := rfl

/-! ### latch -/

@[simp] theorem latch_v (t : Trap) : (s.latch t).v = s.v := rfl
@[simp] theorem latch_i (t : Trap) : (s.latch t).i = s.i := rfl
@[simp] theorem latch_pc (t : Trap) : (s.latch t).pc = s.pc := rfl
@[simp] theorem latch_sp (t : Trap) : (s.latch t).sp = s.sp := rfl
@[simp] theorem latch_stk (t : Trap) : (s.latch t).stk = s.stk := rfl
@[simp] theorem latch_mem (t : Trap) : (s.latch t).mem = s.mem := rfl
@[simp] theorem latch_fb (t : Trap) : (s.latch t).fb = s.fb := rfl
@[simp] theorem latch_dc (t : Trap) : (s.latch t).dc = s.dc := rfl
@[simp] theorem latch_keys (t : Trap) : (s.latch t).keys = s.keys := rfl
@[simp] theorem latch_dt (t : Trap) : (s.latch t).dt = s.dt := rfl
@[simp] theorem latch_status (t : Trap) : (s.latch t).status = .faulted t := rfl
@[simp] theorem latch_fx1eThreshold (t : Trap) : (s.latch t).fx1eThreshold = s.fx1eThreshold := rfl
@[simp] theorem latch_rnd (t : Trap) : (s.latch t).rnd = s.rnd := rfl
@[simp] theorem latch_draws (t : Trap) : (s.latch t).draws = s.draws := rfl
@[simp] theorem latch_readV (t : Trap) (r : Reg) : (s.latch t).readV r = s.readV r := rfl

/-! ### writeFlag -/

@[simp] theorem writeFlag_v (b : Bool) : (s.writeFlag b).v = s.v.set vf (flagByte b) := rfl
@[simp] theorem writeFlag_i (b : Bool) : (s.writeFlag b).i = s.i := rfl
@[simp] theorem writeFlag_pc (b : Bool) : (s.writeFlag b).pc = s.pc := rfl
@[simp] theorem writeFlag_sp (b : Bool) : (s.writeFlag b).sp = s.sp := rfl
@[simp] theorem writeFlag_stk (b : Bool) : (s.writeFlag b).stk = s.stk := rfl
@[simp] theorem writeFlag_mem (b : Bool) : (s.writeFlag b).mem = s.mem := rfl
@[simp] theorem writeFlag_fb (b : Bool) : (s.writeFlag b).fb = s.fb := rfl
@[simp] theorem writeFlag_dc (b : Bool) : (s.writeFlag b).dc = s.dc := rfl
@[simp] theorem writeFlag_keys (b : Bool) : (s.writeFlag b).keys = s.keys := rfl
@[simp] theorem writeFlag_dt (b : Bool) : (s.writeFlag b).dt = s.dt := rfl
@[simp] theorem writeFlag_status (b : Bool) : (s.writeFlag b).status = s.status := rfl
@[simp] theorem writeFlag_fx1eThreshold (b : Bool) : (s.writeFlag b).fx1eThreshold = s.fx1eThreshold := rfl
@[simp] theorem writeFlag_rnd (b : Bool) : (s.writeFlag b).rnd = s.rnd := rfl
@[simp] theorem writeFlag_draws (b : Bool) : (s.writeFlag b).draws = s.draws := rfl

/-! ### setKeypad -/

@[simp] theorem setKeypad_v (k : Vector Bool 16) : (s.setKeypad k).v = s.v := rfl
@[simp] theorem setKeypad_i (k : Vector Bool 16) : (s.setKeypad k).i = s.i := rfl
@[simp] theorem setKeypad_pc (k : Vector Bool 16) : (s.setKeypad k).pc = s.pc := rfl
@[simp] theorem setKeypad_sp (k : Vector Bool 16) : (s.setKeypad k).sp = s.sp := rfl
@[simp] theorem setKeypad_stk (k : Vector Bool 16) : (s.setKeypad k).stk = s.stk := rfl
@[simp] theorem setKeypad_mem (k : Vector Bool 16) : (s.setKeypad k).mem = s.mem := rfl
@[simp] theorem setKeypad_fb (k : Vector Bool 16) : (s.setKeypad k).fb = s.fb := rfl
@[simp] theorem setKeypad_dc (k : Vector Bool 16) : (s.setKeypad k).dc = s.dc := rfl
@[simp] theorem setKeypad_keys (k : Vector Bool 16) : (s.setKeypad k).keys = k := rfl
@[simp] theorem setKeypad_dt (k : Vector Bool 16) : (s.setKeypad k).dt = s.dt := rfl
@[simp] theorem setKeypad_status (k : Vector Bool 16) : (s.setKeypad k).status = s.status := rfl
@[simp] theorem setKeypad_fx1eThreshold (k : Vector Bool 16) : (s.setKeypad k).fx1eThreshold = s.fx1eThreshold := rfl
@[simp] theorem setKeypad_rnd (k : Vector Bool 16) : (s.setKeypad k).rnd = s.rnd := rfl
@[simp] theorem setKeypad_draws (k : Vector Bool 16) : (s.setKeypad k).draws = s.draws := rfl
@[simp] theorem setKeypad_readV (k : Vector Bool 16) (r : Reg) : (s.setKeypad k).readV r = s.readV r := rfl

/-! ### clearDC -/

@[simp] theorem clearDC_v : (s.clearDC).v = s.v := rfl
@[simp] theorem clearDC_i : (s.clearDC).i = s.i := rfl
@[simp] theorem clearDC_pc : (s.clearDC).pc = s.pc := rfl
@[simp] theorem clearDC_sp : (s.clearDC).sp = s.sp := rfl
@[simp] theorem clearDC_stk : (s.clearDC).stk = s.stk := rfl
@[simp] theorem clearDC_mem : (s.clearDC).mem = s.mem := rfl
@[simp] theorem clearDC_fb : (s.clearDC).fb = s.fb := rfl
@[simp] theorem clearDC_dc : (s.clearDC).dc = false := rfl
@[simp] theorem clearDC_keys : (s.clearDC).keys = s.keys := rfl
@[simp] theorem clearDC_dt : (s.clearDC).dt = s.dt := rfl
@[simp] theorem clearDC_status : (s.clearDC).status = s.status := rfl
@[simp] theorem clearDC_fx1eThreshold : (s.clearDC).fx1eThreshold = s.fx1eThreshold := rfl
@[simp] theorem clearDC_rnd : (s.clearDC).rnd = s.rnd := rfl
@[simp] theorem clearDC_draws : (s.clearDC).draws = s.draws := rfl
@[simp] theorem clearDC_readV (r : Reg) : (s.clearDC).readV r = s.readV r := rfl

/-! ### present -/

@[simp] theorem present_v (o : Option Byte) : (s.present o).v = s.v := rfl
@[simp] theorem present_i (o : Option Byte) : (s.present o).i = s.i := rfl
@[simp] theorem present_pc (o : Option Byte) : (s.present o).pc = s.pc := rfl
@[simp] theorem present_sp (o : Option Byte) : (s.present o).sp = s.sp := rfl
@[simp] theorem present_stk (o : Option Byte) : (s.present o).stk = s.stk := rfl
@[simp] theorem present_mem (o : Option Byte) : (s.present o).mem = s.mem := rfl
@[simp] theorem present_fb (o : Option Byte) : (s.present o).fb = s.fb := rfl
@[simp] theorem present_dc (o : Option Byte) : (s.present o).dc = s.dc := rfl
@[simp] theorem present_keys (o : Option Byte) : (s.present o).keys = s.keys := rfl
@[simp] theorem present_dt (o : Option Byte) : (s.present o).dt = s.dt := rfl
@[simp] theorem present_status (o : Option Byte) : (s.present o).status = s.status := rfl
@[simp] theorem present_fx1eThreshold (o : Option Byte) : (s.present o).fx1eThreshold = s.fx1eThreshold := rfl
@[simp] theorem present_rnd (o : Option Byte) : (s.present o).rnd = o := rfl
@[simp] theorem present_draws (o : Option Byte) : (s.present o).draws = s.draws := rfl
@[simp] theorem present_readV (o : Option Byte) (r : Reg) : (s.present o).readV r = s.readV r := rfl

/-! ### registers read after a write -/

@[simp] theorem readV_writeV (x : Reg) (b : Byte) (r : Reg) :
    (s.writeV x b).readV r = if r = x then b else s.readV r := by
  simp only [readV, writeV, Fin.getElem_fin, Vector.getElem_set, Fin.ext_iff]
  split <;> split <;> simp_all

@[simp] theorem readV_writeRegs (w : Vector Byte 16) (r : Reg) : (s.writeRegs w).readV r = w[r] := rfl

@[simp] theorem readV_writeFlag (b : Bool) (r : Reg) :
    (s.writeFlag b).readV r = if r = vf then flagByte b else s.readV r := readV_writeV s vf (flagByte b) r

/-! ### skipIf -/

theorem skipIf_eq (c : Bool) : s.skipIf c = { s with pc := s.pc + (if c then 4 else 2) } := by
  cases c <;> rfl

@[simp] theorem skipIf_v (c : Bool) : (s.skipIf c).v = s.v := by rw [skipIf_eq]
@[simp] theorem skipIf_i (c : Bool) : (s.skipIf c).i = s.i := by rw [skipIf_eq]
@[simp] theorem skipIf_pc (c : Bool) : (s.skipIf c).pc = s.pc + (if c then 4 else 2) := by rw [skipIf_eq]
@[simp] theorem skipIf_sp (c : Bool) : (s.skipIf c).sp = s.sp := by rw [skipIf_eq]
@[simp] theorem skipIf_stk (c : Bool) : (s.skipIf c).stk = s.stk := by rw [skipIf_eq]
@[simp] theorem skipIf_mem (c : Bool) : (s.skipIf c).mem = s.mem := by rw [skipIf_eq]
@[simp] theorem skipIf_fb (c : Bool) : (s.skipIf c).fb = s.fb := by rw [skipIf_eq]
@[simp] theorem skipIf_dc (c : Bool) : (s.skipIf c).dc = s.dc := by rw [skipIf_eq]
@[simp] theorem skipIf_keys (c : Bool) : (s.skipIf c).keys = s.keys := by rw [skipIf_eq]
@[simp] theorem skipIf_dt (c : Bool) : (s.skipIf c).dt = s.dt := by rw [skipIf_eq]
@[simp] theorem skipIf_status (c : Bool) : (s.skipIf c).status = s.status := by rw [skipIf_eq]
@[simp] theorem skipIf_fx1eThreshold (c : Bool) : (s.skipIf c).fx1eThreshold = s.fx1eThreshold := by rw [skipIf_eq]
@[simp] theorem skipIf_rnd (c : Bool) : (s.skipIf c).rnd = s.rnd := by rw [skipIf_eq]
@[simp] theorem skipIf_draws (c : Bool) : (s.skipIf c).draws = s.draws := by rw [skipIf_eq]
@[simp] theorem skipIf_readV (c : Bool) (r : Reg) : (s.skipIf c).readV r = s.readV r := by rw [skipIf_eq]; rfl

/-! ### endCheck -/

/-- The termination check touches STATUS alone. -/
theorem endCheck_eq : s.endCheck = { s with status := s.endCheck.status } := by
  unfold endCheck; split <;> rfl

@[simp] theorem endCheck_v : s.endCheck.v = s.v := by rw [endCheck_eq]
@[simp] theorem endCheck_i : s.endCheck.i = s.i := by rw [endCheck_eq]
@[simp] theorem endCheck_pc : s.endCheck.pc = s.pc := by rw [endCheck_eq]
@[simp] theorem endCheck_sp : s.endCheck.sp = s.sp := by rw [endCheck_eq]
@[simp] theorem endCheck_stk : s.endCheck.stk = s.stk := by rw [endCheck_eq]
@[simp] theorem endCheck_mem : s.endCheck.mem = s.mem := by rw [endCheck_eq]
@[simp] theorem endCheck_fb : s.endCheck.fb = s.fb := by rw [endCheck_eq]
@[simp] theorem endCheck_dc : s.endCheck.dc = s.dc := by rw [endCheck_eq]
@[simp] theorem endCheck_keys : s.endCheck.keys = s.keys := by rw [endCheck_eq]
@[simp] theorem endCheck_dt : s.endCheck.dt = s.dt := by rw [endCheck_eq]
@[simp] theorem endCheck_fx1eThreshold : s.endCheck.fx1eThreshold = s.fx1eThreshold := by rw [endCheck_eq]
@[simp] theorem endCheck_rnd : s.endCheck.rnd = s.rnd := by rw [endCheck_eq]
@[simp] theorem endCheck_draws : s.endCheck.draws = s.draws := by rw [endCheck_eq]

theorem endCheck_status :
    s.endCheck.status = if s.status = .running ∧ s.pc.toNat + 1 > 0xFFF then .ended else s.status := by
  unfold endCheck; split <;> rfl

end Sys2Proof.Machine.State
end

