-- ==== Sys2Proof/Laws/Ops.lean ====
section
/-! SUPPORT. For each shared operation, what it can do, said once: provers cite these instead of unfolding it. -/

namespace Sys2Proof.Machine

/-! ## Outcomes -/

@[simp] theorem raise_eq (f : Trap) (s : State) : raise f s = .next (s.latch f) := rfl

@[simp] theorem finish_next (s : State) : finish (.next s) = .next s.endCheck := rfl

/-- Everything the bounds check can do (20_memory.md R58). -/
theorem State.checked_next {s t u : State} {last : Nat} (h : s.checked last t = .next u) :
    (s.i.toNat + last ≤ 0xFFF ∧ u = t) ∨ (0xFFF < s.i.toNat + last ∧ u = s.latch (.memoryBounds s.i)) := by
  unfold checked ea at h
  split at h
  · left; exact ⟨‹_›, by simpa using h.symm⟩
  · right; exact ⟨by omega, by simpa using h.symm⟩

theorem State.checked_of_le {s : State} {last : Nat} (h : s.i.toNat + last ≤ 0xFFF) (t : State) :
    s.checked last t = .next t := if_pos h

theorem State.checked_of_gt {s : State} {last : Nat} (h : 0xFFF < s.i.toNat + last) (t : State) :
    s.checked last t = .next (s.latch (.memoryBounds s.i)) := if_neg (by simpa [State.ea] using h)

/-- Everything a key skip can do (41_skip.md R114, R115). -/
theorem State.skipOnKey_next {s u : State} {x : Reg} {want : Bool} (h : s.skipOnKey x want = .next u) :
    (∃ hk : (s.readV x).toNat < 16, u = s.skipIf (s.keys[(s.readV x).toNat] == want)) ∨
      (15 < (s.readV x).toNat ∧ u = s.latch (.keyIndex (s.readV x))) := by
  unfold skipOnKey at h
  split at h
  · left; exact ⟨‹_›, by simpa using h.symm⟩
  · right; exact ⟨by omega, by simpa using h.symm⟩

theorem State.skipOnKey_of_key {s : State} {x : Reg} {k : Fin 16} (h : (s.readV x).toNat = k.val) (want : Bool) :
    s.skipOnKey x want = .next (s.skipIf (s.keys[k] == want)) := by
  unfold skipOnKey
  simp only [h, k.isLt, dite_true]
  rfl

theorem State.skipOnKey_of_gt {s : State} {x : Reg} (h : 15 < (s.readV x).toNat) (want : Bool) :
    s.skipOnKey x want = .next (s.latch (.keyIndex (s.readV x))) := dif_neg (by omega)

/-- The keypad scan finds the least pressed key (45_timer_key.md R161). -/
theorem State.lowestKey_of_least {s : State} {k : Fin 16} (hk : s.keys[k] = true)
    (hlt : ∀ j : Fin 16, j < k → s.keys[j] = false) : s.lowestKey = some k := by
  unfold lowestKey
  rw [List.find?_eq_some_iff_getElem]
  refine ⟨hk, k.val, by simp, by simp, fun j hj => ?_⟩
  simpa using hlt ⟨j, by omega⟩ hj

theorem State.lowestKey_of_none {s : State} (h : ∀ k : Fin 16, s.keys[k] = false) : s.lowestKey = none := by
  unfold lowestKey
  simpa using h

/-! ## The cycle -/

theorem State.fetch_of_le {s : State} (h : s.pc.toNat ≤ 0xFFE) :
    s.fetch = some (s.mem.read s.pc.toNat ++ s.mem.read (s.pc.toNat + 1)) := if_pos (by omega)

theorem State.fetch_of_gt {s : State} (h : 0xFFE < s.pc.toNat) : s.fetch = none := if_neg (by omega)

theorem cycle_stopped {run : Instr → State → Out} {s : State} (h : s.status ≠ .running) : cycle run s = .next s := by
  unfold cycle; split <;> simp_all

theorem cycle_ok {run : Instr → State → Out} {s : State} {w : Word} {i : Instr} (hs : s.status = .running)
    (hf : s.fetch = some w) (hd : decode w = .ok i) : cycle run s = finish (run i s) := by
  simp [cycle, hs, hf, hd]

theorem cycle_illegal {run : Instr → State → Out} {s : State} {w : Word} {e : Illegal} (hs : s.status = .running)
    (hf : s.fetch = some w) (hd : decode w = .error e) : cycle run s = .next (s.latch (.decode w)) := by
  simp [cycle, hs, hf, hd]

/-- Everything a step can do (30_encoding.md R71, 10_state.md R43): nothing, in a stopped machine; the decode fault; or the
decoded instruction and the termination check. -/
theorem step_next {s t : State} (h : step s = .next t) :
    (s.status ≠ .running ∧ t = s) ∨
    (s.status = .running ∧ s.pc.toNat ≤ 0xFFE ∧ ∃ w e, s.fetch = some w ∧ decode w = .error e ∧
      t = s.latch (.decode w)) ∨
    (s.status = .running ∧ s.pc.toNat ≤ 0xFFE ∧ ∃ w i u, s.fetch = some w ∧ decode w = .ok i ∧ exec i s = .next u ∧
      t = u.endCheck) := by
  unfold step at h
  by_cases hs : s.status = .running
  · right
    by_cases hp : s.pc.toNat ≤ 0xFFE
    · have hf := s.fetch_of_le hp
      cases hd : decode (s.mem.read s.pc.toNat ++ s.mem.read (s.pc.toNat + 1)) with
      | error e =>
        rw [cycle_illegal hs hf hd] at h
        exact .inl ⟨hs, hp, _, e, hf, hd, (Host.Outcome.next.inj h).symm⟩
      | ok i =>
        rw [cycle_ok hs hf hd] at h
        cases hu : exec i s with
        | next u =>
          rw [hu] at h
          exact .inr ⟨hs, hp, _, i, u, hf, hd, hu, (Host.Outcome.next.inj h).symm⟩
        | fault r => rw [hu] at h; exact nomatch h
        | refused r => rw [hu] at h; exact nomatch h
    · simp [cycle, hs, s.fetch_of_gt (by omega)] at h
  · left
    rw [cycle_stopped hs] at h
    exact ⟨hs, (Host.Outcome.next.inj h).symm⟩

/-! ## What an instruction can do to STATUS -/

/-- `o` answers a next state that has the STATUS of `s`, or is `s` with a fault latched. -/
def goesOnOrFaults (s : State) (o : Out) : Prop :=
  ∃ t, o = .next t ∧ (t.status = s.status ∨ ∃ f, t = s.latch f)

theorem goesOn {s t : State} (h : t.status = s.status) : goesOnOrFaults s (.next t) := ⟨t, rfl, .inl h⟩

theorem faults (s : State) (f : Trap) : goesOnOrFaults s (.next (s.latch f)) := ⟨_, rfl, .inr ⟨f, rfl⟩⟩

theorem goesOnOrFaults_checked {s t : State} (h : t.status = s.status) (last : Nat) :
    goesOnOrFaults s (s.checked last t) := by
  unfold State.checked; split
  · exact goesOn h
  · exact faults s _

theorem goesOnOrFaults_skipOnKey (s : State) (x : Reg) (want : Bool) : goesOnOrFaults s (s.skipOnKey x want) := by
  unfold State.skipOnKey; split
  · exact goesOn (by simp)
  · exact faults s _

/-- Every instruction answers a next state; it goes on with STATUS as it was, or its only effect is the latched fault. -/
theorem exec_goesOnOrFaults (i : Instr) (s : State) : goesOnOrFaults s (exec i s) := by
  cases i with
  | ret => simp only [exec, execRet]; split; exacts [faults s _, goesOn rfl]
  | call nnn => simp only [exec, execCall]; split; exacts [goesOn rfl, faults s _]
  | drw x y n => simp only [exec, execDrw]; split; exacts [goesOn (by simp), goesOnOrFaults_checked (by simp) _]
  | ldVxK x => simp only [exec, execLdVxK]; split; exacts [goesOn rfl, goesOn rfl]
  | skp x => exact goesOnOrFaults_skipOnKey s x true
  | sknp x => exact goesOnOrFaults_skipOnKey s x false
  | ldB x => simp only [exec, execLdB]; exact goesOnOrFaults_checked (by simp) _
  | storeRegs x => simp only [exec, execStoreRegs]; exact goesOnOrFaults_checked (by simp) _
  | loadRegs x => simp only [exec, execLoadRegs]; exact goesOnOrFaults_checked (by simp) _
  | seImm x nn => exact goesOn (by simp)
  | sneImm x nn => exact goesOn (by simp)
  | seReg x y => exact goesOn (by simp)
  | sneReg x y => exact goesOn (by simp)
  | cls => exact goesOn rfl
  | jp nnn => exact goesOn rfl
  | ldImm x nn => exact goesOn rfl
  | addImm x nn => exact goesOn rfl
  | ldReg x y => exact goesOn rfl
  | orReg x y => exact goesOn rfl
  | andReg x y => exact goesOn rfl
  | xorReg x y => exact goesOn rfl
  | addReg x y => exact goesOn rfl
  | subReg x y => exact goesOn rfl
  | shr x y => exact goesOn rfl
  | subnReg x y => exact goesOn rfl
  | shl x y => exact goesOn rfl
  | ldI nnn => exact goesOn rfl
  | jpV0 nnn => exact goesOn rfl
  | rnd x nn => exact goesOn rfl
  | ldVxDt x => exact goesOn rfl
  | ldDtVx x => exact goesOn rfl
  | ldStVx x => exact goesOn rfl
  | addI x => exact goesOn rfl
  | ldF x => exact goesOn rfl

/-! ## Operands and the sprite -/

theorem State.regsTo_length (s : State) (x : Reg) : (s.regsTo x).length = x.val + 1 := by
  simp [regsTo]

theorem State.regsTo_getD (s : State) {x k : Reg} (h : k ≤ x) : (s.regsTo x).getD k.val 0 = s.readV k := by
  have hk : k.val < x.val + 1 := Nat.lt_succ_of_le h
  simp [regsTo, List.getD, hk, readV]

theorem State.regsLoaded_get (s : State) (x k : Reg) :
    (s.regsLoaded x)[k] = if k ≤ x then s.mem.read (s.ea k.val) else s.readV k := by
  simp [regsLoaded]

@[simp] theorem digits_length (a : Byte) : (digits a).length = 3 := rfl

@[simp] theorem State.drawn_get (s : State) (x y : Reg) (n : Fin 16) (row : Fin 32) :
    (s.drawn x y n)[row] = s.fb[row] ^^^ s.drawMask x y n row := by
  simp [drawn]

@[simp] theorem State.drawn_pixel (s : State) (x y : Reg) (n : Fin 16) (row : Fin 32) (col : Fin 64) :
    (s.drawn x y n).pixel row col = xor (s.fb.pixel row col) ((s.drawMask x y n row).getMsbD col.val) := by
  simp [Framebuffer.pixel, drawn]

/-- A pixel of the row mask: sprite bit `7 − b` where `b` is the distance of the column from `cx`, taken around the 64
columns. -/
theorem rowMask_getMsbD (sprite cx : Byte) (col : Fin 64) :
    (rowMask sprite cx).getMsbD col.val =
      (decide ((col.val + 64 - cx.toNat % 64) % 64 < 8) && sprite.getMsbD ((col.val + 64 - cx.toNat % 64) % 64)) := by
  have hc := col.isLt
  have hm : cx.toNat % 64 % 64 = cx.toNat % 64 := Nat.mod_mod _ _
  simp only [rowMask, BitVec.getMsbD_rotateRight, hm, BitVec.getMsbD_append]
  by_cases h : col.val < cx.toNat % 64
  · have e : (col.val + 64 - cx.toNat % 64) % 64 = 64 + col.val - cx.toNat % 64 := by omega
    have e' : (64 + col.val - cx.toNat % 64) % (8 + 56) = 64 + col.val - cx.toNat % 64 := by omega
    have e'' : (8 + 56 + col.val - cx.toNat % 64) % (8 + 56) = 64 + col.val - cx.toNat % 64 := by omega
    simp only [h, if_true, e, e'']
    by_cases hb : 64 + col.val - cx.toNat % 64 < 8
    · simp [hb]
    · simp [hb]
  · have e : (col.val + 64 - cx.toNat % 64) % 64 = col.val - cx.toNat % 64 := by omega
    simp only [h, if_false, e]
    by_cases hb : col.val - cx.toNat % 64 < 8
    · simp [hb]
    · simp [hb]

end Sys2Proof.Machine
end

