-- ==== Sys2Proof/Laws/Flags.lean ====
section
/-! SUPPORT. What each flag computation says, once: provers cite these instead of unfolding it. -/

namespace Sys2Proof.Machine

theorem flagByte_zero_or_one (b : Bool) : flagByte b = 0 ∨ flagByte b = 1 := by cases b <;> decide

@[simp] theorem flagByte_eq_one (b : Bool) : flagByte b = 1 ↔ b = true := by cases b <;> decide

@[simp] theorem flagByte_eq_zero (b : Bool) : flagByte b = 0 ↔ b = false := by cases b <;> decide

@[simp] theorem carry_iff (a b : Byte) : carry a b = true ↔ 255 < a.toNat + b.toNat := by simp [carry]

@[simp] theorem noBorrow_iff (a b : Byte) : noBorrow a b = true ↔ b.toNat ≤ a.toNat := by simp [noBorrow]

@[simp] theorem State.indexOverflow_iff (s : State) (new : Word) :
    s.indexOverflow new = true ↔ s.fx1eThreshold < new.toNat := by simp [indexOverflow]

/-- A sprite bit of Dxyn lands on a pixel exactly when the row's mask is on there (44_display.md R152). -/
theorem State.drawMask_iff_spriteBit (s : State) (x y : Reg) (n : Fin 16) (row : Fin 32) (col : Fin 64) :
    (s.drawMask x y n row).getMsbD col.val = true ↔ spriteBit s x y n row col := by
  have hn := n.isLt
  have hr := row.isLt
  have hc := col.isLt
  unfold drawMask spriteBit
  constructor
  · intro h
    simp only at h
    split at h
    · rename_i hlt
      rw [rowMask_getMsbD] at h
      simp only [Bool.and_eq_true, decide_eq_true_eq] at h
      refine ⟨_, (col.val + 64 - (s.readV x).toNat % 64) % 64, hlt, h.1, by omega, by omega, ?_⟩
      have h2 := h.2
      rw [BitVec.getMsbD] at h2
      simp only [Bool.and_eq_true, decide_eq_true_eq] at h2
      exact h2.2
    · simp at h
  · rintro ⟨r, b, hlt, hb, er, ec, hbit⟩
    have e1 : (row.val + 32 - (s.readV y).toNat % 32) % 32 = r := by omega
    have e2 : (col.val + 64 - (s.readV x).toNat % 64) % 64 = b := by omega
    simp only [e1, hlt, if_true, rowMask_getMsbD, e2]
    rw [BitVec.getMsbD]
    simpa [hb, ea] using hbit

/-- The collision flag, pixel by pixel (44_display.md R152). -/
theorem State.collision_iff (s : State) (x y : Reg) (n : Fin 16) :
    s.collision x y n = true ↔
      ∃ row col, s.fb.pixel row col = true ∧ (s.drawMask x y n row).getMsbD col.val = true := by
  have key : ∀ a b : BitVec 64, a &&& b ≠ 0 ↔ ∃ col : Fin 64, a.getMsbD col.val = true ∧ b.getMsbD col.val = true := by
    intro a b
    constructor
    · intro h
      by_contra hno
      refine h (BitVec.eq_of_getMsbD_eq fun k hk => ?_)
      have := mt (fun h => ⟨⟨k, hk⟩, h⟩) hno
      simpa using this
    · rintro ⟨col, ha, hb⟩ h
      have := congrArg (fun m => BitVec.getMsbD m col.val) h
      simp [ha, hb] at this
  simp only [collision, List.any_eq_true, List.mem_finRange, true_and, bne_iff_ne, key]
  rfl

end Sys2Proof.Machine
end

