-- ==== Sys2Proof/Laws/HostOps.lean ====
section
/-! SUPPORT. What each host operation can do, said once: provers cite these instead of unfolding it. -/

namespace Sys2Proof.Machine

@[simp] theorem romWellFormed_iff (rom : List Byte) : romWellFormed rom = true ↔ rom.length ≤ 3584 := by
  simp [romWellFormed, Config.memSize, Config.progBase]

@[simp] theorem loadByte_wellFormed_iff (addr : Nat) (val : Byte) :
    (HostOp.loadByte addr val).wellFormed = true ↔ 0x200 ≤ addr ∧ addr < 4096 := by
  simp [HostOp.wellFormed, Config.memSize, Config.progBase]

@[simp] theorem State.present_eq (s : State) (rnd : Option Byte) : s.present rnd = { s with rnd := rnd } := rfl

/-! ## Loading a ROM (10_state.md R41) -/

theorem State.loadRom_of_le {s : State} {rom : List Byte} (h : rom.length ≤ 3584) :
    s.loadRom rom = .next (s.writeMem (s.mem.writeBytes 0x200 rom)) := if_pos ((romWellFormed_iff rom).2 h)

theorem State.loadRom_of_gt {s : State} {rom : List Byte} (h : 3584 < rom.length) :
    s.loadRom rom = .refused (.romTooLong rom.length) :=
  if_neg (mt (romWellFormed_iff rom).1 (Nat.not_le_of_gt h))

/-- Everything a ROM load that answers a next state can do. -/
theorem State.loadRom_next {s t : State} {rom : List Byte} (h : s.loadRom rom = .next t) :
    rom.length ≤ 3584 ∧ t = s.writeMem (s.mem.writeBytes 0x200 rom) := by
  by_cases hl : rom.length ≤ 3584
  · rw [loadRom_of_le hl] at h; exact ⟨hl, (Host.Outcome.next.inj h).symm⟩
  · rw [loadRom_of_gt (by omega)] at h; exact nomatch h

/-! ## `Step(rnd)` (10_state.md R43) -/

theorem stepWith_of_next {b : Byte} {s t : State} (h : step { s with rnd := some b } = .next t) :
    stepWith b s = .next { t with rnd := none } := by
  simp [stepWith, h]

/-- Everything a step with a named byte that answers a next state can do. -/
theorem stepWith_next {b : Byte} {s u : State} (h : stepWith b s = .next u) :
    ∃ t, step { s with rnd := some b } = .next t ∧ u = { t with rnd := none } := by
  simp only [stepWith, State.present_eq] at h
  split at h
  · exact ⟨_, ‹_›, (Host.Outcome.next.inj h).symm⟩
  · exact nomatch h
  · exact nomatch h

/-! ## Every operation -/

theorem applyOp_loadByte_of_mem {s : State} {addr : Nat} {val : Byte} (h : 0x200 ≤ addr ∧ addr < 4096) :
    applyOp (.loadByte addr val) s = .next (s.loadByte addr val) := if_pos ((loadByte_wellFormed_iff addr val).2 h)

theorem applyOp_loadByte_of_not_mem {s : State} {addr : Nat} {val : Byte} (h : ¬(0x200 ≤ addr ∧ addr < 4096)) :
    applyOp (.loadByte addr val) s = .refused (.loadOutsideProgramArea addr) :=
  if_neg (mt (loadByte_wellFormed_iff addr val).1 h)

/-- Everything a host operation that answers a next state can do (10_state.md R40 to R46). -/
theorem applyOp_next {op : HostOp} {s t : State} (h : applyOp op s = .next t) :
    (op = .reset ∧ t = s.hostReset) ∨
    (∃ addr val, op = .loadByte addr val ∧ 0x200 ≤ addr ∧ addr < 4096 ∧ t = s.loadByte addr val) ∨
    (∃ k, op = .setKeypad k ∧ t = s.setKeypad k) ∨
    (∃ b u, op = .step b ∧ step { s with rnd := some b } = .next u ∧ t = { u with rnd := none }) ∨
    (op = .tick ∧ t = s.tick) ∨ (op = .clearDC ∧ t = s.clearDC) ∨ (op = .readDisplay ∧ t = s) := by
  cases op with
  | reset => cases h; simp
  | loadByte addr val =>
    by_cases ha : 0x200 ≤ addr ∧ addr < 4096
    · rw [applyOp_loadByte_of_mem ha] at h; cases h; simp [ha]
    · rw [applyOp_loadByte_of_not_mem ha] at h; exact nomatch h
  | setKeypad k => cases h; simp
  | step b =>
    obtain ⟨u, hu, rfl⟩ := stepWith_next h
    simp [hu]
  | tick => cases h; simp
  | clearDC => cases h; simp
  | readDisplay => cases h; simp

end Sys2Proof.Machine
end

