-- ==== Sys2Proof/Laws/PerInstr.lean ====
section
/-! SUPPORT. The family `FitsRow`: the word of an instruction meets the mask and match of its row of the opcode map, and so
decoding has the row to find (30_encoding.md R80). One lemma per constructor. -/

namespace Sys2Proof.Laws.FitsRow

/-- `opcode AND mask = match` for the encoded instruction and its own row (30_encoding.md R80). -/
def Statement (i : Instr) : Prop := encode i &&& i.row.2 = i.row.1

theorem andZero {n : Nat} (a : BitVec n) : a &&& (0 : BitVec n) = 0 := BitVec.and_zero

theorem andF (a : BitVec 4) : a &&& (0xF : BitVec 4) = a := BitVec.and_allOnes

theorem andFF (a : BitVec 8) : a &&& (0xFF : BitVec 8) = a := BitVec.and_allOnes

/-- A word in format `NNN` shows its family under the mask 0xF000. -/
theorem maskNNN (f : BitVec 4) (nnn : Addr12) : encodeNNN f nnn &&& 0xF000 = f ++ (0 : BitVec 12) := by
  have h : (0xF000 : Word) = (0xF : BitVec 4) ++ (0 : BitVec 12) := by decide
  rw [encodeNNN, h]
  refine BitVec.and_append.trans ?_
  rw [andZero, andF]

/-- A word in format `XNN` shows its family under the mask 0xF000. -/
theorem maskXNN (f : BitVec 4) (x : Reg) (nn : Byte) : encodeXNN f x nn &&& 0xF000 = f ++ (0 : BitVec 12) :=
  maskNNN f (nibbleOf x ++ nn)

/-- A word in format `X` shows its family and low byte under the mask 0xF0FF. -/
theorem maskX (f : BitVec 4) (x : Reg) (nn : Byte) :
    encodeXNN f x nn &&& 0xF0FF = f ++ ((0 : BitVec 4) ++ nn) := by
  have h : (0xF0FF : Word) = (0xF : BitVec 4) ++ ((0 : BitVec 4) ++ (0xFF : BitVec 8)) := by decide
  rw [encodeXNN, h]
  refine BitVec.and_append.trans ?_
  rw [andF]
  congr 1
  refine BitVec.and_append.trans ?_
  rw [andZero, andFF]

/-- A word in format `XY` shows its family and last nibble under the mask 0xF00F. -/
theorem maskXY (f : BitVec 4) (x y n : Fin 16) :
    encodeXYN f x y n &&& 0xF00F = f ++ ((0 : BitVec 4) ++ ((0 : BitVec 4) ++ nibbleOf n)) := by
  have h : (0xF00F : Word) = (0xF : BitVec 4) ++ ((0 : BitVec 4) ++ ((0 : BitVec 4) ++ (0xF : BitVec 4))) := by decide
  rw [encodeXYN, encodeXNN, h]
  refine BitVec.and_append.trans ?_
  rw [andF]
  congr 1
  refine BitVec.and_append.trans ?_
  rw [andZero]
  congr 1
  refine BitVec.and_append.trans ?_
  rw [andZero, andF]

theorem cls : Statement .cls := by unfold Statement; decide
theorem ret : Statement .ret := by unfold Statement; decide
theorem jp (nnn : Addr12) : Statement (.jp nnn) := maskNNN 0x1 nnn
theorem call (nnn : Addr12) : Statement (.call nnn) := maskNNN 0x2 nnn
theorem seImm (x : Reg) (nn : Byte) : Statement (.seImm x nn) := maskXNN 0x3 x nn
theorem sneImm (x : Reg) (nn : Byte) : Statement (.sneImm x nn) := maskXNN 0x4 x nn
theorem seReg (x y : Reg) : Statement (.seReg x y) := maskXY 0x5 x y 0x0
theorem ldImm (x : Reg) (nn : Byte) : Statement (.ldImm x nn) := maskXNN 0x6 x nn
theorem addImm (x : Reg) (nn : Byte) : Statement (.addImm x nn) := maskXNN 0x7 x nn
theorem ldReg (x y : Reg) : Statement (.ldReg x y) := maskXY 0x8 x y 0x0
theorem orReg (x y : Reg) : Statement (.orReg x y) := maskXY 0x8 x y 0x1
theorem andReg (x y : Reg) : Statement (.andReg x y) := maskXY 0x8 x y 0x2
theorem xorReg (x y : Reg) : Statement (.xorReg x y) := maskXY 0x8 x y 0x3
theorem addReg (x y : Reg) : Statement (.addReg x y) := maskXY 0x8 x y 0x4
theorem subReg (x y : Reg) : Statement (.subReg x y) := maskXY 0x8 x y 0x5
theorem shr (x y : Reg) : Statement (.shr x y) := maskXY 0x8 x y 0x6
theorem subnReg (x y : Reg) : Statement (.subnReg x y) := maskXY 0x8 x y 0x7
theorem shl (x y : Reg) : Statement (.shl x y) := maskXY 0x8 x y 0xE
theorem sneReg (x y : Reg) : Statement (.sneReg x y) := maskXY 0x9 x y 0x0
theorem ldI (nnn : Addr12) : Statement (.ldI nnn) := maskNNN 0xA nnn
theorem jpV0 (nnn : Addr12) : Statement (.jpV0 nnn) := maskNNN 0xB nnn
theorem rnd (x : Reg) (nn : Byte) : Statement (.rnd x nn) := maskXNN 0xC x nn
theorem drw (x y : Reg) (n : Fin 16) : Statement (.drw x y n) := maskXNN 0xD x (nibbleOf y ++ nibbleOf n)
theorem skp (x : Reg) : Statement (.skp x) := maskX 0xE x 0x9E
theorem sknp (x : Reg) : Statement (.sknp x) := maskX 0xE x 0xA1
theorem ldVxDt (x : Reg) : Statement (.ldVxDt x) := maskX 0xF x 0x07
theorem ldVxK (x : Reg) : Statement (.ldVxK x) := maskX 0xF x 0x0A
theorem ldDtVx (x : Reg) : Statement (.ldDtVx x) := maskX 0xF x 0x15
theorem ldStVx (x : Reg) : Statement (.ldStVx x) := maskX 0xF x 0x18
theorem addI (x : Reg) : Statement (.addI x) := maskX 0xF x 0x1E
theorem ldF (x : Reg) : Statement (.ldF x) := maskX 0xF x 0x29
theorem ldB (x : Reg) : Statement (.ldB x) := maskX 0xF x 0x33
theorem storeRegs (x : Reg) : Statement (.storeRegs x) := maskX 0xF x 0x55
theorem loadRegs (x : Reg) : Statement (.loadRegs x) := maskX 0xF x 0x65

end Sys2Proof.Laws.FitsRow
end

