-- ==== Sys2Proof/Tests/Slice0.lean ====
section
/-! SUPPORT. Tests, each from the spec's text: words written out from the patterns of 30_encoding.md R80, vectors of
95_test_vectors.md (named by their ids), the smoke test of WellFormed.lean, and witnesses for the statements' hypotheses. -/

namespace Sys2Proof.Tests

open Sys2Proof Sys2Proof.Machine

/-! ## Helpers -/

/-- The reset state with these general registers. -/
def regs (l : List (Reg × Byte)) : State := l.foldl (fun s p => s.writeV p.1 p.2) State.reset

/-- These bytes from address `a` on. -/
def bytes (a : Nat) (l : List Byte) (s : State) : State := s.writeMem (s.mem.writeBytes a l)

/-- These pixels, as (row, column), on. -/
def pixels (l : List (Fin 32 × Fin 64)) : Framebuffer :=
  l.foldl (fun fb p => fb.set p.1 (fb[p.1] ||| (1 : BitVec 64) <<< (63 - p.2.val))) (Vector.replicate 32 0)

/-- The outcome is a next state that passes the check. -/
def passes (o : Out) (p : State → Bool) : Bool :=
  match o with
  | .next t => p t
  | .fault _ => false
  | .refused _ => false

theorem next_of_passes {o : Out} {p : State → Bool} (h : passes o p = true) : ∃ t, o = .next t ∧ p t = true := by
  cases o with
  | next t => exact ⟨t, rfl, h⟩
  | fault _ => exact absurd h (by simp [passes])
  | refused _ => exact absurd h (by simp [passes])

/-- One step on word `w`, placed where the next step fetches. -/
def run (w : Nat) (s : State) (p : State → Bool) : Bool := passes (step (s.withFetchWord 16 w)) p

/-- One step on word `w` leaves exactly `f` of the state it was placed in. -/
def gives (w : Nat) (s : State) (f : State → State) : Bool :=
  run w s fun t => decide (t = f (s.withFetchWord 16 w))

/-- The keypad with these keys pressed. -/
def pressed (l : List (Fin 16)) : Vector Bool 16 := Vector.ofFn fun k => decide (k ∈ l)

/-! ## Decoding: one word for every row, written out from its pattern (R80) -/

theorem test_decode_flow : decode 0x00EE = .ok .ret ∧ decode 0x1228 = .ok (.jp 0x228) ∧
    decode 0x2ABC = .ok (.call 0xABC) ∧ decode 0xBFFF = .ok (.jpV0 0xFFF) := by decide

theorem test_decode_skip : decode 0x332A = .ok (.seImm 3 0x2A) ∧ decode 0x4C01 = .ok (.sneImm 12 0x01) ∧
    decode 0x5120 = .ok (.seReg 1 2) ∧ decode 0x9EF0 = .ok (.sneReg 14 15) ∧ decode 0xE29E = .ok (.skp 2) ∧
    decode 0xEDA1 = .ok (.sknp 13) := by decide

theorem test_decode_const : decode 0x6A7F = .ok (.ldImm 10 0x7F) ∧ decode 0x7320 = .ok (.addImm 3 0x20) ∧
    decode 0xA9B7 = .ok (.ldI 0x9B7) ∧ decode 0xC50F = .ok (.rnd 5 0x0F) := by decide

theorem test_decode_alu : decode 0x8120 = .ok (.ldReg 1 2) ∧ decode 0x8231 = .ok (.orReg 2 3) ∧
    decode 0x8342 = .ok (.andReg 3 4) ∧ decode 0x8453 = .ok (.xorReg 4 5) ∧ decode 0x8014 = .ok (.addReg 0 1) ∧
    decode 0x8675 = .ok (.subReg 6 7) ∧ decode 0x8AB6 = .ok (.shr 10 11) ∧ decode 0x8897 = .ok (.subnReg 8 9) ∧
    decode 0x8CDE = .ok (.shl 12 13) := by decide

theorem test_decode_display : decode 0x00E0 = .ok .cls ∧ decode 0xD5A7 = .ok (.drw 5 10 7) := by decide

theorem test_decode_timer_key : decode 0xF307 = .ok (.ldVxDt 3) ∧ decode 0xF40A = .ok (.ldVxK 4) ∧
    decode 0xF515 = .ok (.ldDtVx 5) ∧ decode 0xF618 = .ok (.ldStVx 6) := by decide

theorem test_decode_index_mem : decode 0xF21E = .ok (.addI 2) ∧ decode 0xF329 = .ok (.ldF 3) ∧
    decode 0xF533 = .ok (.ldB 5) ∧ decode 0xFE55 = .ok (.storeRegs 14) ∧ decode 0xF165 = .ok (.loadRegs 1) := by decide

/-- E1 to E9. -/
theorem test_decode_illegal : decode 0x0000 = .error (.family0 0x000) ∧ decode 0x01E0 = .error (.family0 0x1E0) ∧
    decode 0x5121 = .error (.family5 1) ∧ decode 0x8018 = .error (.family8 8) ∧ decode 0x912F = .error (.family9 15) ∧
    decode 0xE09D = .error (.familyE 0x9D) ∧ decode 0xF130 = .error (.familyF 0x30) := by decide

/-- The field examples of T1 and 2.8. -/
theorem test_fields : fields 0xD5A7 = ⟨0xD, 5, 10, 7, 0xA7, 0x5A7⟩ ∧ fields 0x1228 = ⟨0x1, 2, 2, 8, 0x28, 0x228⟩ := by decide

/-- High byte first; anything but two bytes is rejected (R70, R52). -/
theorem test_decode_bytes : decodeBytes [0x12, 0x28] = .ok (.jp 0x228) ∧ decodeBytes [0x12] = .error .notTwoBytes ∧
    decodeBytes [0x12, 0x28, 0x00] = .error .notTwoBytes ∧ wordBytes 0x1228 = [0x12, 0x28] := by decide

theorem test_decode_table_word : decodeTableWord 16 0x8014 = some (.addReg 0 1) ∧ decodeTableWord 16 0x8018 = none := by decide

/-! ## Well-formedness and the canonical form -/

/-- LoadByte outside 0x200 to 0xFFF is ill formed (R41). -/
theorem test_load_range : (HostOp.loadByte 0x1FF 7).wellFormed = false ∧ (HostOp.loadByte 0x1000 7).wellFormed = false ∧
    (HostOp.loadByte 0x200 7).wellFormed = true ∧ (HostOp.loadByte 0xFFF 7).wellFormed = true := by decide

/-- A ROM of 3585 bytes is ill formed, one of 3584 is not (R41). -/
theorem test_rom_size : romWellFormed (List.replicate 3585 0) = false ∧ romWellFormed (List.replicate 3584 0) = true := by
  simp only [romWellFormed, List.length_replicate]; decide

/-- Out of order, listed twice, outside memory, equal to the reset contents: none is canonical. -/
theorem test_memory_wf : ¬Memory.wf ⟨defaultFont, [(0x301, 1), (0x300, 1)]⟩ ∧ ¬Memory.wf ⟨defaultFont, [(0x300, 1), (0x300, 2)]⟩ ∧
    ¬Memory.wf ⟨defaultFont, [(0x1000, 1)]⟩ ∧ ¬Memory.wf ⟨defaultFont, [(0x300, 0)]⟩ ∧ ¬Memory.wf ⟨defaultFont, [(0, 0xF0)]⟩ ∧
    Memory.wf ⟨defaultFont, [(0, 0), (0x300, 1)]⟩ := by decide

/-- Writing what an unlisted address reads as removes the entry (log 8). -/
theorem test_memory_canonical : ((State.reset.mem.write 0x300 5).write 0x200 6).cells = [(0x200, 6), (0x300, 5)] ∧
    (((State.reset.mem.write 0x300 5).write 0x200 6).write 0x300 0).cells = [(0x200, 6)] ∧
    ((State.reset.mem.write 0x000 5).write 0x000 0xF0).cells = [] := by decide

/-! ## Control transfer -/

/-- T2, F5. -/
theorem test_jp : gives 0x1228 State.reset (fun s => { s with pc := 0x228 }) ∧
    gives 0x1FFF State.reset (fun s => { s with pc := 0xFFF, status := .ended }) := by decide

/-- F6, F10. -/
theorem test_call : gives 0x2300 State.reset (fun s => { s with pc := 0x300, sp := 1, stk := s.stk.set 0 0x0202 }) ∧
    gives 0x2300 { State.reset with pc := 0xFFE } (fun s => { s with pc := 0x300, sp := 1, stk := s.stk.set 0 0x1000 }) := by
  decide

/-- F7, F8. -/
theorem test_call_full :
    gives 0x2300 { State.reset with sp := 15 } (fun s => { s with pc := 0x300, sp := 16, stk := s.stk.set 15 0x0202 }) ∧
    gives 0x2300 { State.reset with sp := 16 } (fun s => { s with status := .faulted (.stackOverflow 0x200) }) := by decide

/-- F12, F13. -/
theorem test_ret : gives 0x00EE { State.reset with pc := 0x300, sp := 16, stk := State.reset.stk.set 15 0x0ABC }
      (fun s => { s with pc := 0xABC, sp := 15 }) ∧
    gives 0x00EE { State.reset with pc := 0x300 } (fun s => { s with status := .faulted (.stackUnderflow 0x300) }) := by decide

/-- F14: a return out of memory ends the program. -/
theorem test_ret_end : gives 0x00EE { State.reset with pc := 0x300, sp := 1, stk := State.reset.stk.set 0 0x1000 }
    (fun s => { s with pc := 0x1000, sp := 0, status := .ended }) := by decide

/-- F16, F19. -/
theorem test_jp_v0 : gives 0xB300 (regs [(0, 4), (3, 9)]) (fun s => { s with pc := 0x304 }) ∧
    gives 0xBFFF (regs [(0, 0xFF)]) (fun s => { s with pc := 0x10FE, status := .ended }) := by decide

/-! ## Skips -/

/-- S1, S2. -/
theorem test_se_imm : gives 0x332A (regs [(3, 0x2A)]) (fun s => { s with pc := 0x204 }) ∧
    gives 0x332B (regs [(3, 0x2A)]) (fun s => { s with pc := 0x202 }) := by decide

/-- S3, S4. -/
theorem test_sne_imm : gives 0x432A (regs [(3, 0x2A)]) (fun s => { s with pc := 0x202 }) ∧
    gives 0x4300 (regs [(3, 0x2A)]) (fun s => { s with pc := 0x204 }) := by decide

/-- S5, S6. -/
theorem test_se_reg : gives 0x5120 (regs [(1, 7), (2, 7)]) (fun s => { s with pc := 0x204 }) ∧
    gives 0x5120 (regs [(1, 7), (2, 8)]) (fun s => { s with pc := 0x202 }) := by decide

/-- S7, S8. -/
theorem test_sne_reg : gives 0x9120 (regs [(1, 7), (2, 8)]) (fun s => { s with pc := 0x204 }) ∧
    gives 0x9120 (regs [(1, 7), (2, 7)]) (fun s => { s with pc := 0x202 }) := by decide

/-- S12, S14, S16. -/
theorem test_skp : gives 0xE29E { regs [(2, 5)] with keys := pressed [5] } (fun s => { s with pc := 0x204 }) ∧
    gives 0xE29E (regs [(2, 5)]) (fun s => { s with pc := 0x202 }) ∧
    gives 0xE29E { regs [(2, 0x10)] with keys := pressed [0] } (fun s => { s with status := .faulted (.keyIndex 0x10) }) := by
  decide

/-- S13, S15, S17. -/
theorem test_sknp : gives 0xE2A1 { regs [(2, 5)] with keys := pressed [5] } (fun s => { s with pc := 0x202 }) ∧
    gives 0xE2A1 (regs [(2, 5)]) (fun s => { s with pc := 0x204 }) ∧
    gives 0xE2A1 (regs [(2, 0xFF)]) (fun s => { s with status := .faulted (.keyIndex 0xFF) }) := by decide

/-- S18, S19. -/
theorem test_skip_end : gives 0x3000 { State.reset with pc := 0xFFC } (fun s => { s with pc := 0x1000, status := .ended }) ∧
    gives 0x3001 { State.reset with pc := 0xFFC } (fun s => { s with pc := 0xFFE }) := by decide

/-! ## Immediate loads and add -/

/-- K1, and T8 at 0xFFE. -/
theorem test_ld_imm : gives 0x6A7F State.reset (fun s => { s with pc := 0x202, v := s.v.set 10 0x7F }) ∧
    gives 0x6A01 { State.reset with pc := 0xFFE }
      (fun s => { s with pc := 0x1000, v := s.v.set 10 0x01, status := .ended }) := by decide

/-- K4, K6. -/
theorem test_add_imm : gives 0x7301 (regs [(3, 0xFF), (15, 1)]) (fun s => { s with pc := 0x202, v := s.v.set 3 0 }) ∧
    gives 0x7FFF (regs [(15, 1)]) (fun s => { s with pc := 0x202, v := s.v.set 15 0 }) := by decide

/-- K8. -/
theorem test_ld_i : gives 0xAFFF State.reset (fun s => { s with pc := 0x202, i := 0xFFF }) := by decide

/-- K9: the byte the host names, once. -/
theorem test_rnd : gives 0xC50F { State.reset with rnd := some 0xB7 }
    (fun s => { s with pc := 0x202, v := s.v.set 5 0x07, rnd := none, draws := 1 }) := by decide

/-- K13, K11: a byte nobody named is masked all the same. -/
theorem test_rnd_free : run 0xC500 (regs [(5, 9)]) (fun t => decide (t.pc = 0x202)) ∧
    run 0xC500 { regs [(5, 9)] with rnd := some 0xB7 } (fun t => decide (t.readV 5 = 0)) := by decide

/-! ## ALU -/

/-- A1 to A4: VF stays 0x77. -/
theorem test_ld_reg : gives 0x8010 (regs [(0, 0x11), (1, 0x5A), (15, 0x77)])
    (fun s => { s with pc := 0x202, v := s.v.set 0 0x5A }) := by decide

theorem test_or : gives 0x8011 (regs [(0, 0xF0), (1, 0x0F), (15, 0x77)])
    (fun s => { s with pc := 0x202, v := s.v.set 0 0xFF }) := by decide

theorem test_and : gives 0x8012 (regs [(0, 0xF0), (1, 0x3C), (15, 0x77)])
    (fun s => { s with pc := 0x202, v := s.v.set 0 0x30 }) := by decide

theorem test_xor : gives 0x8013 (regs [(0, 0xF0), (1, 0x3C), (15, 0x77)])
    (fun s => { s with pc := 0x202, v := s.v.set 0 0xCC }) := by decide

/-- A6, A7. -/
theorem test_add : gives 0x8014 (regs [(0, 0x80), (1, 0x80), (15, 0x77)])
      (fun s => { s with pc := 0x202, v := (s.v.set 0 0).set 15 1 }) ∧
    gives 0x8014 (regs [(0, 0xFE), (1, 0x01), (15, 0x77)])
      (fun s => { s with pc := 0x202, v := (s.v.set 0 0xFF).set 15 0 }) := by decide

/-- A30, A32: VF as destination keeps the carry; VF as operand is its old value. -/
theorem test_add_vf : gives 0x8F14 (regs [(15, 0xF0), (1, 0x20)]) (fun s => { s with pc := 0x202, v := s.v.set 15 1 }) ∧
    gives 0x80F4 (regs [(0, 0xFF), (15, 2)]) (fun s => { s with pc := 0x202, v := (s.v.set 0 1).set 15 1 }) := by decide

/-- A9, A11. -/
theorem test_sub : gives 0x8015 (regs [(0, 0x10), (1, 0x20), (15, 0x77)])
      (fun s => { s with pc := 0x202, v := (s.v.set 0 0xF0).set 15 0 }) ∧
    gives 0x8015 (regs [(0, 0x33), (1, 0x33), (15, 0x77)])
      (fun s => { s with pc := 0x202, v := (s.v.set 0 0).set 15 1 }) := by decide

/-- A35, A37: the result remains in VF; VF as operand is its old value (D8, log 9). -/
theorem test_sub_vf : gives 0x8F15 (regs [(15, 0x30), (1, 0x10)]) (fun s => { s with pc := 0x202, v := s.v.set 15 0x20 }) ∧
    gives 0x80F5 (regs [(0, 0x30), (15, 0x10)]) (fun s => { s with pc := 0x202, v := (s.v.set 0 0x20).set 15 1 }) := by decide

/-- A16, A19, A24. -/
theorem test_shr : gives 0x8016 (regs [(0, 0x05), (1, 0xAA), (15, 0x77)])
      (fun s => { s with pc := 0x202, v := (s.v.set 0 0x02).set 15 1 }) ∧
    gives 0x80F6 (regs [(0, 0xFF), (15, 0x77)]) (fun s => { s with pc := 0x202, v := (s.v.set 0 0x7F).set 15 1 }) := by decide

/-- A13, A14. -/
theorem test_subn : gives 0x8017 (regs [(0, 0x10), (1, 0x20), (15, 0x77)])
      (fun s => { s with pc := 0x202, v := (s.v.set 0 0x10).set 15 1 }) ∧
    gives 0x8017 (regs [(0, 0x20), (1, 0x10), (15, 0x77)])
      (fun s => { s with pc := 0x202, v := (s.v.set 0 0xF0).set 15 0 }) := by decide

/-- A20, A21. -/
theorem test_shl : gives 0x801E (regs [(0, 0x81), (1, 0xAA), (15, 0x77)])
      (fun s => { s with pc := 0x202, v := (s.v.set 0 0x02).set 15 1 }) ∧
    gives 0x801E (regs [(0, 0x40), (15, 0x77)]) (fun s => { s with pc := 0x202, v := (s.v.set 0 0x80).set 15 0 }) := by decide

/-- A41, A42 with `VF = 0x41`: VF as destination keeps the result (D8, log 9). -/
theorem test_shift_vf : gives 0x8F06 (regs [(15, 0x07)]) (fun s => { s with pc := 0x202, v := s.v.set 15 0x03 }) ∧
    gives 0x8F0E (regs [(15, 0x41)]) (fun s => { s with pc := 0x202, v := s.v.set 15 0x82 }) := by decide

/-! ## Display -/

set_option maxRecDepth 20000 in
/-- D1. -/
theorem test_cls : gives 0x00E0 { regs [(15, 9)] with fb := pixels [(3, 4)] }
    (fun s => { s with pc := 0x202, fb := pixels [], dc := true }) := by decide

set_option maxRecDepth 20000 in
/-- D6: both wraps. -/
theorem test_drw_wrap : gives 0xD012 { bytes 0x300 [0x81, 0x42] (regs [(0, 62), (1, 31)]) with i := 0x300 }
    (fun s => { s with pc := 0x202, dc := true, fb := pixels [(31, 62), (31, 5), (0, 63), (0, 4)] }) := by decide

set_option maxRecDepth 20000 in
/-- D14, D11: one colliding pixel; a sprite beyond memory. -/
theorem test_drw_collision_and_bounds :
    gives 0xD011 { bytes 0x300 [0xC0] State.reset with i := 0x300, fb := pixels [(0, 1), (0, 5)] }
      (fun s => { s with pc := 0x202, dc := true, fb := pixels [(0, 0), (0, 5)], v := s.v.set 15 1 }) ∧
    gives 0xD012 { regs [(15, 7)] with i := 0xFFF, fb := pixels [(0, 0)] }
      (fun s => { s with status := .faulted (.memoryBounds 0xFFF) }) := by decide

/-! ## Timer and keypad -/

/-- M1. -/
theorem test_ld_vx_dt : gives 0xF307 { State.reset with dt := 0x2A }
    (fun s => { s with pc := 0x202, v := s.v.set 3 0x2A }) := by decide

/-- M6, M7. -/
theorem test_ld_vx_k : gives 0xF30A (regs [(3, 0x77)]) (fun s => { s with pc := 0x202 }) ∧
    gives 0xF30A { regs [(3, 0x77)] with keys := pressed [4, 9] } (fun s => { s with pc := 0x202, v := s.v.set 3 4 }) := by
  decide

/-- M3. -/
theorem test_ld_dt_vx : gives 0xF315 (regs [(3, 0xFF)]) (fun s => { s with pc := 0x202, dt := 0xFF }) := by decide

/-- M5. -/
theorem test_ld_st_vx : gives 0xF318 { regs [(3, 0x55)] with dt := 3 } (fun s => { s with pc := 0x202 }) := by decide

/-! ## Index and memory -/

/-- X2, X3, X4. -/
theorem test_add_i : gives 0xF21E { regs [(2, 1), (15, 9)] with i := 0xFFE }
      (fun s => { s with pc := 0x202, i := 0xFFF, v := s.v.set 15 0 }) ∧
    gives 0xF21E { regs [(2, 1), (15, 9)] with i := 0xFFF }
      (fun s => { s with pc := 0x202, i := 0x1000, v := s.v.set 15 1 }) ∧
    gives 0xF21E { regs [(2, 1), (15, 9)] with i := 0xFFF, fx1eThreshold := 0x1000 }
      (fun s => { s with pc := 0x202, i := 0x1000, v := s.v.set 15 0 }) := by decide

/-- X8, X10: the 16-bit wrap; VF added, then overwritten. -/
theorem test_add_i_wrap_and_vf : gives 0xF21E { regs [(2, 0xFF), (15, 9)] with i := 0xFF80 }
      (fun s => { s with pc := 0x202, i := 0x007F, v := s.v.set 15 0 }) ∧
    gives 0xFF1E { regs [(15, 5)] with i := 0xFFE }
      (fun s => { s with pc := 0x202, i := 0x1003, v := s.v.set 15 1 }) := by decide

/-- X14, X15. -/
theorem test_ld_f : gives 0xF329 { regs [(3, 0x10)] with i := 0x999 } (fun s => { s with pc := 0x202, i := 0x50 }) ∧
    gives 0xF329 { regs [(3, 0xFF)] with i := 0x999 } (fun s => { s with pc := 0x202, i := 0x4FB }) := by decide

/-- X25, X26. -/
theorem test_ld_b : gives 0xF533 { regs [(5, 123)] with i := 0xFFD } (fun s => { bytes 0xFFD [1, 2, 3] s with pc := 0x202 }) ∧
    gives 0xF533 { regs [(5, 123)] with i := 0xFFE } (fun s => { s with status := .faulted (.memoryBounds 0xFFE) }) := by decide

/-- X28, X31. -/
theorem test_store_regs :
    gives 0xF355 { bytes 0x404 [0xEE] (regs [(0, 1), (1, 2), (2, 3), (3, 4), (4, 0x99)]) with i := 0x400 }
      (fun s => { bytes 0x400 [1, 2, 3, 4, 0xEE] s with pc := 0x202 }) ∧
    gives 0xF155 { regs [(0, 0xAB)] with i := 0xFFF } (fun s => { s with status := .faulted (.memoryBounds 0xFFF) }) := by decide

/-- X35, X36. -/
theorem test_load_regs :
    gives 0xF165 { bytes 0xFFE [0x12, 0x34] (regs [(0, 9), (1, 9), (2, 9), (3, 9)]) with i := 0xFFE }
      (fun s => { s with pc := 0x202, v := (s.v.set 0 0x12).set 1 0x34 }) ∧
    gives 0xF265 { regs [(0, 9)] with i := 0xFFE } (fun s => { s with status := .faulted (.memoryBounds 0xFFE) }) := by decide

/-! ## The cycle and the host -/

/-- P5d: with nothing loaded the first step raises the decode fault. -/
theorem test_empty : passes (step State.reset)
    (fun t => decide (t = { State.reset with status := .faulted (.decode 0x0000) })) := by decide

/-- H5, H7, M4. -/
theorem test_tick : passes (applyOp .tick { State.reset with dt := 3, status := .ended }) (fun t => decide (t.dt = 2)) ∧
    passes (applyOp .tick State.reset) (fun t => decide (t = State.reset)) := by decide

/-- H6: a reset out of a fault loses the ROM. -/
theorem test_host_reset :
    passes (applyOp .reset { bytes 0x200 [1] State.reset with status := .faulted (.keyIndex 0x10) })
      (fun t => decide (t = State.reset)) := by decide

/-- K10 through the host: `Step(0xB7)`. -/
theorem test_step_with : passes (stepWith 0xB7 (State.reset.withFetchWord 16 0xC5FF)) (fun t => decide (t.readV 5 = 0xB7)) := by
  decide

/-- The ROM goes to 0x200 on (R41); the fetch is big-endian (2.8). -/
theorem test_load_rom : passes (State.reset.loadRom [0x12, 0x28]) (fun t => decide (t.fetch = some 0x1228)) := by decide

/-- A ROM of 3585 bytes has no launch state (U17). -/
theorem test_load_rom_too_long (s : State) : s.loadRom (List.replicate 3585 0) = .refused (.romTooLong 3585) := by
  rw [State.loadRom, test_rom_size.1, List.length_replicate]; rfl

/-! ## Witnesses: states and operands that meet the hypotheses of each statement, clause by clause, at boundary values -/

/-- Word `w` about to run at `pc`. -/
def ready (pc : Word) (w : Nat) : State := State.withFetchWord { State.reset with pc := pc } 16 w

/-- A reset state stopped by a fault. -/
def stopped : State := { State.reset with status := .faulted (.keyIndex 0x10) }

/-- A reset state with `n` stack entries in use. -/
def nested (n : Fin 17) : State := { State.reset with sp := n }

theorem witness_EncodeOfDecodeIsTheWord : decode 0x0000 ≠ .ok .cls ∧ decode 0x00E0 = .ok .cls ∧
    decode 0xFF65 = .ok (.loadRegs 15) := by decide

theorem witness_StepRunsTheDecodedInstruction : (ready 0x200 0x1228).status = .running ∧ (ready 0xFFE 0x1228).pc.toNat ≤ 0xFFE ∧
    decode ((ready 0x200 0x1228).mem.read 0x200 ++ (ready 0x200 0x1228).mem.read 0x201) = .ok (.jp 0x228) ∧
    decode ((ready 0xFFE 0x1228).mem.read 0xFFE ++ (ready 0xFFE 0x1228).mem.read 0xFFF) = .ok (.jp 0x228) := by decide

theorem witness_IllegalWordLatchesDecodeFault : State.reset.status = .running ∧ State.reset.pc.toNat ≤ 0xFFE ∧
    decode (State.reset.mem.read State.reset.pc.toNat ++ State.reset.mem.read (State.reset.pc.toNat + 1)) =
      .error (.family0 0x000) := by decide

theorem witness_StoppedMachineStepsToItself : stopped.status ≠ .running ∧ stopped.rnd = none ∧
    { State.reset with status := .ended }.status ≠ .running := by decide

/-- A step that ends at 0xFFF, one that goes on at 0xFFE, one that faults. -/
theorem witness_EndsExactlyWhenPcLeavesMemory :
    (∃ t, step (ready 0x200 0x1FFF) = .next t ∧ decide (t.status = .ended ∧ t.pc = 0xFFF) = true) ∧
    (∃ t, step (ready 0x200 0x1FFE) = .next t ∧ decide (t.status = .running ∧ t.pc = 0xFFE) = true) ∧
    ∃ t, step (ready 0x200 0x0000) = .next t ∧ decide (t.status = .faulted (.decode 0)) = true :=
  ⟨next_of_passes (by decide), next_of_passes (by decide), next_of_passes (by decide)⟩

theorem witness_FaultingStepChangesOnlyStatus :
    ∃ t, step (ready 0x200 0x00EE) = .next t ∧ decide (t.status = .faulted (.stackUnderflow 0x200)) = true :=
  next_of_passes (by decide)

/-- Every row of the table on either side of its bound. -/
theorem witness_FaultsExactlyAsTheTableSays :
    faultOf (nested 16) (.call 0x300) = some (.stackOverflow 0x200) ∧ faultOf (nested 15) (.call 0x300) = none ∧
    faultOf (nested 0) .ret = some (.stackUnderflow 0x200) ∧ faultOf (nested 1) .ret = none ∧
    faultOf { State.reset with i := 0xFFE } (.ldB 0) = some (.memoryBounds 0xFFE) ∧
    faultOf { State.reset with i := 0xFFD } (.ldB 0) = none ∧
    faultOf { State.reset with i := 0xFF1 } (.storeRegs 15) = some (.memoryBounds 0xFF1) ∧
    faultOf { State.reset with i := 0xFF0 } (.loadRegs 15) = none ∧
    faultOf { State.reset with i := 0xFF2 } (.drw 0 0 15) = some (.memoryBounds 0xFF2) ∧
    faultOf { State.reset with i := 0xFF1 } (.drw 0 0 15) = none ∧
    faultOf { State.reset with i := 0xFFFF } (.drw 0 0 0) = none ∧
    faultOf (regs [(2, 16)]) (.skp 2) = some (.keyIndex 16) ∧ faultOf (regs [(2, 15)]) (.sknp 2) = none := by decide

theorem witness_PcAdvancesByTwoUnlessStatedOtherwise :
    (∃ t, exec (.ldImm 1 7) State.reset = .next t ∧ decide (t.status = .running ∧ t.pc = 0x202) = true) ∧
    (∃ t, exec (.seImm 1 7) State.reset = .next t ∧ decide (t.status = .running ∧ t.pc = 0x202) = true) ∧
    (∃ t, exec (.seImm 1 0) State.reset = .next t ∧ decide (t.status = .running ∧ t.pc = 0x204) = true) ∧
    setsPc (.ldImm 1 7) = false ∧ isSkip (.ldImm 1 7) = false ∧ isSkip (.seImm 1 7) = true :=
  ⟨next_of_passes (by decide), next_of_passes (by decide), next_of_passes (by decide), rfl, rfl, rfl⟩

/-- A full stack, the last pc that can be fetched from, a byte in memory. -/
theorem witness_EveryStepKeepsTheInvariant :
    { bytes 0xFFE [1] State.reset with pc := 0xFFE, sp := 16, stk := Vector.replicate 16 0x1000 }.Inv where
  mem_wf := by decide
  fetchable := by decide
  pc_le := by decide
  entries_ok := by decide

/-- The host's clauses: a byte at the last address of memory, a ROM. -/
theorem witness_EveryStepKeepsTheInvariant_host : (∃ t, applyOp (.loadByte 0xFFF 1) State.reset = .next t) ∧
    ∃ t, State.reset.loadRom [0x12, 0x28] = .next t := ⟨⟨_, rfl⟩, ⟨_, rfl⟩⟩

theorem witness_EveryReachableStateMeetsTheInvariant : Reach true State.reset.tick ∧ ∃ t, Reach false t := by
  obtain ⟨t, ht, _⟩ := next_of_passes (o := step State.reset) (p := fun _ => true) (by decide)
  exact ⟨.tick (.reset _ _), t, .step (.reset _ _) ht⟩

theorem witness_CanonicalMemoriesReadingAlikeAreEqual :
    ((State.reset.mem.write 0x300 5).write 0x200 6).wf ∧ ((State.reset.mem.write 0x200 6).write 0x300 5).wf ∧
    ∀ a, ((State.reset.mem.write 0x300 5).write 0x200 6).read a = ((State.reset.mem.write 0x200 6).write 0x300 5).read a :=
  ⟨by decide, by decide, fun _ => rfl⟩

theorem witness_OnlyNamedRegistersAndTheFlagChange :
    (∃ t, exec (.addReg 0 1) State.reset = .next t ∧ decide ((2 : Reg) ∉ destRegs (.addReg 0 1)) = true) ∧
    ¬(writesFlag (.ldReg 0 1) = true ∧ vf = vf) ∧ vf ∉ destRegs (.ldReg 0 1) :=
  ⟨next_of_passes (p := fun _ => decide ((2 : Reg) ∉ destRegs (.addReg 0 1))) (by decide), by decide, by decide⟩

theorem witness_FlagIsAlwaysZeroOrOne :
    (∃ t, exec (.addReg 15 1) (regs [(15, 0xF0), (1, 0x20)]) = .next t ∧
      decide (t.status = .running ∧ writesFlag (.addReg 15 1) = true) = true) ∧
    (∃ t, exec (.subReg 14 1) State.reset = .next t ∧
      decide (t.status = .running ∧ writesFlag (.subReg 14 1) = true ∧ vf ∉ destRegs (.subReg 14 1)) = true) :=
  ⟨next_of_passes (by decide), next_of_passes (by decide)⟩

theorem witness_EachPartIsWrittenOnlyByItsInstructions :
    ∃ t, exec (.ldI 0x300) State.reset = .next t ∧ decide (Part.memory ∉ writtenParts (.ldI 0x300)) = true :=
  next_of_passes (p := fun _ => decide (Part.memory ∉ writtenParts (.ldI 0x300))) (by decide)

theorem witness_InputsAreReadOnlyByTheirInstructions : (∃ t, exec .cls State.reset = .next t) ∧
    (∀ x, Instr.cls ≠ .skp x ∧ Instr.cls ≠ .sknp x ∧ Instr.cls ≠ .ldVxK x) ∧ (∀ x nn, Instr.cls ≠ .rnd x nn) ∧
    (∀ x, Instr.cls ≠ .ldVxDt x ∧ Instr.cls ≠ .ldDtVx x) :=
  ⟨⟨_, rfl⟩, fun _ => ⟨nofun, nofun, nofun⟩, nofun, fun _ => ⟨nofun, nofun⟩⟩

/-- The clause about Fx15. -/
theorem witness_InputsAreReadOnlyByTheirInstructions_setDelay : (∃ t, exec (.ldDtVx 3) State.reset = .next t) ∧
    ∃ x, Instr.ldDtVx 3 = .ldDtVx x := ⟨⟨_, rfl⟩, 3, rfl⟩

/-- One entry in use, and the first entry not in use different. -/
theorem witness_DeadStackEntriesAreUnobservable :
    sameUpToDeadEntries (nested 1) { nested 1 with stk := (nested 1).stk.set 1 7 } ∧
    (nested 1).stk ≠ (nested 1).stk.set 1 7 ∧ ∃ t, step (nested 1) = .next t := by
  refine ⟨⟨rfl, by decide⟩, by decide, ?_⟩
  obtain ⟨t, ht, _⟩ := next_of_passes (o := step (nested 1)) (p := fun _ => true) (by decide)
  exact ⟨t, ht⟩

theorem witness_IgnoredFieldsHaveNoEffect : (3 : Reg) ≠ 0 := by decide

theorem witness_CallPushesTheReturnAddress : (nested 15).sp.val < 16 ∧ (nested 16).sp.val = 16 := by decide

theorem witness_ReturnPopsTheTopEntry : (nested 1).sp.val = (0 : Fin 16).val + 1 ∧ (nested 16).sp.val = (15 : Fin 16).val + 1 ∧
    (nested 0).sp.val = 0 := by decide

theorem witness_CallThenReturnResumesAfterTheCall : (nested 0).sp.val < 16 ∧ (nested 15).sp.val < 16 := by decide

theorem witness_RegisterSkipsCompare : (1 : Fin 16) ≠ 0 ∧ (15 : Fin 16) ≠ 0 := by decide

theorem witness_KeySkipsTestTheNamedKey : ((regs [(2, 15)]).readV 2).toNat = (15 : Fin 16).val ∧
    15 < ((regs [(2, 16)]).readV 2).toNat := by decide

theorem witness_RandomByteIsMasked : { State.reset with rnd := some 0xB7 }.rnd = some 0xB7 ∧ State.reset.rnd = none ∧
    (0x0F : Byte).getLsbD 4 = false ∧ (ready 0xFFE 0xC50F).status = .running ∧ (ready 0xFFE 0xC50F).pc.toNat ≤ 0xFFE ∧
    decode ((ready 0xFFE 0xC50F).mem.read 0xFFE ++ (ready 0xFFE 0xC50F).mem.read 0xFFF) = .ok (.rnd 5 0x0F) := by decide

theorem witness_HostOperationsDoOnlyTheirJob : ∃ t, step { ready 0x200 0xC50F with rnd := some 0xB7 } = .next t ∧
    decide (t.readV 5 = 0x07) = true := next_of_passes (by decide)

theorem witness_FlagDestinations : (14 : Reg) ≠ vf ∧ (0 : Reg) ≠ vf := by decide

theorem witness_DrawTogglesWhereSpriteBitsLand : (0 : Fin 16).val = 0 ∧
    { State.reset with i := 0xFF1 }.i.toNat + ((15 : Fin 16).val - 1) ≤ 0xFFF := by decide

theorem witness_DrawDatapathRefinesThePixelLoop : (0 : Fin 16).val = 0 ∧
    { State.reset with i := 0xFFF }.i.toNat + ((1 : Fin 16).val - 1) ≤ 0xFFF := by decide

/-- The second clause too: the glyph "0" drawn on a clear screen. -/
theorem witness_DrawingTwiceRestoresTheFramebuffer : (0 : Reg) ≠ vf ∧ State.reset.i.toNat + ((5 : Fin 16).val - 1) ≤ 0xFFF ∧
    State.reset.mem.read 0 ≠ 0 ∧ State.reset.collision 0 0 5 = false := by decide

theorem witness_KeypadIsSampledWithoutWaiting : (pressed [15])[(15 : Fin 16)] = true ∧
    (∀ j : Fin 16, j < 15 → (pressed [15])[j] = false) ∧ (pressed [0, 9])[(0 : Fin 16)] = true ∧
    (∀ k : Fin 16, State.reset.keys[k] = false) := by decide

theorem witness_DecimalDigitsAreStored : { State.reset with i := 0xFFD }.i.toNat + 2 ≤ 0xFFF := by decide

/-- For RegistersAreDumped, RegistersAreLoaded and DumpThenLoadBringsRegistersBack. -/
theorem witness_RegistersInMemory : { State.reset with i := 0xFF0 }.i.toNat + (15 : Reg).val ≤ 0xFFF ∧
    { State.reset with i := 0xFFF }.i.toNat + (0 : Reg).val ≤ 0xFFF := by decide

/-- Program P4: the store at 0x206 over the word at 0x208. -/
theorem witness_StoredCodeIsFetchedNext :
    ∃ t, exec (.storeRegs 1) { State.reset with pc := 0x206, i := 0x208 } = .next t ∧
      decide ((0x206 : Word).toNat ≤ 0xFFC ∧ (0x208 : Word).toNat + (1 : Reg).val ≤ 0xFFF ∧
        (0x208 : Word).toNat + (0 : Reg).val = (0x206 : Word).toNat + 2 ∧ (0 : Reg).val + 1 ≤ (1 : Reg).val) = true :=
  next_of_passes (p := fun _ => _) (by decide)

theorem witness_ResetLeavesTheTable : State.reset = State.resetWith defaultFont defaultFx1eThreshold ∧ 80 ≤ 80 := by decide

theorem witness_LoadByteStoresInTheProgramAreaOnly : 0x200 ≤ 0x200 ∧ 0xFFF ≤ 0xFFF ∧ 0x1FF < 0x200 ∧ 0xFFF < 0x1000 ∧
    (List.replicate 3584 (0 : Byte)).length ≤ 3584 ∧ 3584 < (List.replicate 3585 (0 : Byte)).length := by
  simp only [List.length_replicate]; decide

theorem witness_OnlyResetLeavesAStop : stopped.status ≠ .running ∧ HostOp.tick ≠ .reset ∧
    applyOp .tick stopped = .next stopped.tick := ⟨by decide, by decide, rfl⟩

theorem witness_PlacedWordIsRunByTheNextStep : decode 0x1228 = .ok (.jp 0x228) := by decide

end Sys2Proof.Tests
end

section
/-! The invariant along every run (O16): what is left of it between the execution of an instruction and the termination
check, that every instruction keeps that part, and from there the step, the host operations and `Reach`. -/

namespace Sys2Proof.Machine

/-! ## The invariant before the termination check -/

/-- `State.Inv` without `fetchable`, which only the termination check restores (30_encoding.md R71). -/
structure State.PreInv (s : State) : Prop where
  mem_wf     : s.mem.wf
  pc_le      : s.pc.toNat ≤ 0x10FE
  entries_ok : ∀ k : Fin 16, k.val < s.sp.val → 2 ≤ s.stk[k].toNat ∧ s.stk[k].toNat ≤ 0x1000

theorem State.Inv.preInv {s : State} (h : s.Inv) : s.PreInv := ⟨h.mem_wf, h.pc_le, h.entries_ok⟩

theorem State.PreInv.inv {s : State} (h : s.PreInv) (hf : s.status = .running → s.pc.toNat ≤ 0xFFE) : s.Inv :=
  ⟨h.mem_wf, hf, h.pc_le, h.entries_ok⟩

/-- Without a change of the stack, memory and pc are all there is to check. -/
theorem State.PreInv.of_stack_eq {s t : State} (h : s.PreInv) (hsp : t.sp = s.sp) (hstk : t.stk = s.stk)
    (hm : t.mem.wf) (hpc : t.pc.toNat ≤ 0x10FE) : t.PreInv :=
  ⟨hm, hpc, by rw [hsp, hstk]; exact h.entries_ok⟩

theorem State.PreInv.latch {s : State} (h : s.PreInv) (f : Trap) : (s.latch f).PreInv :=
  h.of_stack_eq rfl rfl h.mem_wf h.pc_le

/-- The termination check ends a machine that could not fetch, so it restores the whole invariant. -/
theorem State.PreInv.endCheck {s : State} (h : s.PreInv) : s.endCheck.Inv := by
  refine (h.of_stack_eq s.endCheck_sp s.endCheck_stk ?_ ?_).inv fun hr => ?_
  · simpa using h.mem_wf
  · simpa using h.pc_le
  · rw [endCheck_status] at hr
    rw [endCheck_pc]
    split at hr
    · exact nomatch hr
    · next hn =>
      have hp : ¬s.pc.toNat + 1 > 0xFFF := fun hp => hn ⟨hr, hp⟩
      omega

/-! ## Call and return -/

/-- The entry that a call pushes is `pc + 2` of a pc that was fetched from (40_flow.md R102). -/
theorem State.PreInv.push {s : State} (h : s.PreInv) (hsp : s.sp.val < 16) {w : Word}
    (hw : 2 ≤ w.toNat ∧ w.toNat ≤ 0x1000) : (s.push w hsp).PreInv := by
  refine ⟨h.mem_wf, h.pc_le, fun k hk => ?_⟩
  have hk : k.val < s.sp.val + 1 := hk
  rw [push_stk, Fin.getElem_fin, Vector.getElem_set]
  split
  · exact hw
  · exact h.entries_ok k (by omega)

theorem State.PreInv.pop {s : State} (h : s.PreInv) : s.pop.PreInv := by
  refine ⟨h.mem_wf, h.pc_le, fun k hk => h.entries_ok k ?_⟩
  have hk : k.val < s.sp.val - 1 := hk
  omega

theorem State.PreInv.top_le {s : State} (h : s.PreInv) (hsp : s.sp.val ≠ 0) : s.top.toNat ≤ 0x1000 :=
  (h.entries_ok ⟨s.sp.val - 1, by omega⟩ (show s.sp.val - 1 < s.sp.val by omega)).2

theorem State.PreInv.jumpTo {s : State} (h : s.PreInv) {w : Word} (hw : w.toNat ≤ 0x10FE) : (s.jumpTo w).PreInv :=
  h.of_stack_eq rfl rfl h.mem_wf hw

/-! ## Targets -/

theorem addrOperand_le (nnn : Addr12) : (addrOperand nnn).toNat ≤ 0x10FE := by
  simp only [addrOperand, BitVec.toNat_setWidth]; omega

/-- The highest pc of all: `0xFF + 0xFFF` (40_flow.md R103). -/
theorem State.offsetTarget_le (s : State) (nnn : Addr12) : (s.offsetTarget nnn).toNat ≤ 0x10FE := by
  simp only [offsetTarget, byteOperand, addrOperand, BitVec.toNat_add, BitVec.toNat_setWidth]; omega

/-- The generic advance and the skip from a pc that was fetched from do not wrap (10_state.md R23). -/
theorem pc_add_toNat_of_le {pc : Word} (hp : pc.toNat ≤ 0xFFE) :
    (pc + 2).toNat = pc.toNat + 2 ∧ (pc + 4).toNat = pc.toNat + 4 := by
  constructor <;> bv_omega

/-! ## What every instruction keeps -/

/-- `o` answers a next state that meets the invariant up to the termination check. -/
def meetsPreInv (o : Out) : Prop := ∃ t, o = .next t ∧ t.PreInv

theorem meetsPreInv_next {t : State} (h : t.PreInv) : meetsPreInv (.next t) := ⟨t, rfl, h⟩

section Exec

variable {s : State} (h : s.PreInv) (hp : s.pc.toNat ≤ 0xFFE)
include h

theorem meetsPreInv_checked {t : State} {last : Nat} (ht : s.i.toNat + last ≤ 0xFFF → t.PreInv) :
    meetsPreInv (s.checked last t) := by
  by_cases hl : s.i.toNat + last ≤ 0xFFF
  · rw [State.checked_of_le hl]; exact meetsPreInv_next (ht hl)
  · rw [State.checked_of_gt (by omega)]; exact meetsPreInv_next (h.latch _)

theorem meetsPreInv_ret : meetsPreInv (execRet s) := by
  unfold execRet; split
  · exact meetsPreInv_next (h.latch _)
  · have := h.top_le ‹_›
    exact meetsPreInv_next (h.pop.jumpTo (by omega))

include hp

/-- An instruction that leaves memory, pc and the stack alone, and then advances. -/
theorem State.PreInv.advance {u : State} (hm : u.mem = s.mem) (hpc : u.pc = s.pc) (hsp : u.sp = s.sp)
    (hstk : u.stk = s.stk) : u.advance.PreInv := by
  refine h.of_stack_eq hsp hstk (hm ▸ h.mem_wf) ?_
  rw [advance_pc, hpc, (pc_add_toNat_of_le hp).1]; omega

theorem State.PreInv.skipIf (c : Bool) : (s.skipIf c).PreInv := by
  have ⟨h2, h4⟩ := pc_add_toNat_of_le hp
  refine h.of_stack_eq (s.skipIf_sp c) (s.skipIf_stk c) (s.skipIf_mem c ▸ h.mem_wf) ?_
  rw [skipIf_pc]
  split
  · rw [h4]; omega
  · rw [h2]; omega

/-- A store of bytes from I on that the bounds check lets through (20_memory.md R58). -/
theorem State.PreInv.store {bs : List Byte} (hb : s.ea 0 + bs.length ≤ 4096) :
    (s.writeMem (s.mem.writeBytes (s.ea 0) bs)).advance.PreInv := by
  refine h.of_stack_eq rfl rfl (Memory.wf_writeBytes h.mem_wf hb) ?_
  rw [advance_pc, writeMem_pc, (pc_add_toNat_of_le hp).1]; omega

theorem meetsPreInv_advance {u : State} (hm : u.mem = s.mem) (hpc : u.pc = s.pc) (hsp : u.sp = s.sp)
    (hstk : u.stk = s.stk) : meetsPreInv (.next u.advance) := meetsPreInv_next (h.advance hp hm hpc hsp hstk)

theorem meetsPreInv_skipOnKey (x : Reg) (want : Bool) : meetsPreInv (s.skipOnKey x want) := by
  unfold State.skipOnKey; split
  · exact meetsPreInv_next (h.skipIf hp _)
  · exact meetsPreInv_next (h.latch _)

theorem meetsPreInv_call (nnn : Addr12) : meetsPreInv (execCall nnn s) := by
  unfold execCall; split
  · have hw := (pc_add_toNat_of_le hp).1
    exact meetsPreInv_next ((h.push ‹_› (by omega)).jumpTo (addrOperand_le nnn))
  · exact meetsPreInv_next (h.latch _)

theorem meetsPreInv_drw (x y : Reg) (n : Fin 16) : meetsPreInv (execDrw x y n s) := by
  have ht : ((s.display (s.drawn x y n)).writeFlag (s.collision x y n)).advance.PreInv :=
    h.advance hp (by simp) (by simp) (by simp) (by simp)
  unfold execDrw; split
  · exact meetsPreInv_next ht
  · exact meetsPreInv_checked h fun _ => ht

theorem meetsPreInv_ldVxK (x : Reg) : meetsPreInv (execLdVxK x s) := by
  unfold execLdVxK; split
  · exact meetsPreInv_advance h hp rfl rfl rfl rfl
  · exact meetsPreInv_advance h hp rfl rfl rfl rfl

/-- Every instruction, run at a pc it was fetched from, keeps the invariant up to the termination check. -/
theorem exec_meetsPreInv (i : Instr) : meetsPreInv (exec i s) := by
  cases i with
  | ret => exact meetsPreInv_ret h
  | call nnn => exact meetsPreInv_call h hp nnn
  | jp nnn => exact meetsPreInv_next (h.jumpTo (addrOperand_le nnn))
  | jpV0 nnn => exact meetsPreInv_next (h.jumpTo (s.offsetTarget_le nnn))
  | seImm | sneImm | seReg | sneReg => exact meetsPreInv_next (h.skipIf hp _)
  | skp x | sknp x => exact meetsPreInv_skipOnKey h hp x _
  | drw x y n => exact meetsPreInv_drw h hp x y n
  | ldVxK x => exact meetsPreInv_ldVxK h hp x
  | ldB x =>
    refine meetsPreInv_checked h fun hl => h.store hp ?_
    rw [digits_length, State.ea]; omega
  | storeRegs x =>
    refine meetsPreInv_checked h fun hl => h.store hp ?_
    rw [State.regsTo_length, State.ea]; omega
  | loadRegs x => exact meetsPreInv_checked h fun _ => h.advance hp (by simp) (by simp) (by simp) (by simp)
  | cls | ldImm | addImm | ldReg | orReg | andReg | xorReg | addReg | subReg | shr | subnReg | shl | ldI | rnd | ldVxDt
  | ldDtVx | ldStVx | addI | ldF => exact meetsPreInv_advance h hp rfl rfl rfl rfl

end Exec

/-! ## The step and the host's operations -/

/-- An operation of the host that touches neither pc, STATUS nor the stack. -/
theorem State.Inv.of_control_eq {s t : State} (h : s.Inv) (hpc : t.pc = s.pc) (hst : t.status = s.status)
    (hsp : t.sp = s.sp) (hstk : t.stk = s.stk) (hm : t.mem.wf) : t.Inv :=
  (h.preInv.of_stack_eq hsp hstk hm (hpc ▸ h.pc_le)).inv fun hr => hpc ▸ h.fetchable (hst ▸ hr)

theorem step_keeps_inv {s t : State} (h : s.Inv) (ht : step s = .next t) : t.Inv := by
  obtain ⟨-, rfl⟩ | ⟨-, -, w, e, -, -, rfl⟩ | ⟨-, hp, w, i, u, -, -, hu, rfl⟩ := step_next ht
  · exact h
  · exact (h.preInv.latch _).inv fun hr => nomatch hr
  · obtain ⟨v, hv, hinv⟩ := exec_meetsPreInv h.preInv hp i
    obtain rfl : v = u := Host.Outcome.next.inj (hv.symm.trans hu)
    exact hinv.endCheck

theorem stepWith_keeps_inv {rnd : Byte} {s t : State} (h : s.Inv) (ht : stepWith rnd s = .next t) : t.Inv := by
  obtain ⟨u, hu, rfl⟩ := stepWith_next ht
  have hpresented : { s with rnd := some rnd }.Inv := h.of_control_eq rfl rfl rfl rfl h.mem_wf
  have hu : u.Inv := step_keeps_inv hpresented hu
  exact hu.of_control_eq rfl rfl rfl rfl hu.mem_wf

theorem resetWith_inv (font : Config.Font) (threshold : Nat) : (State.resetWith font threshold).Inv where
  mem_wf := reset_mem_wf font threshold
  fetchable _ := show (0x200 : Word).toNat ≤ 0xFFE by decide
  pc_le := show (0x200 : Word).toNat ≤ 0x10FE by decide
  entries_ok k hk := absurd hk (Nat.not_lt_zero k.val)

theorem hostReset_inv (s : State) : s.hostReset.Inv :=
  have h := resetWith_inv s.mem.font s.fx1eThreshold
  h.of_control_eq rfl rfl rfl rfl h.mem_wf

theorem loadByte_keeps_inv {s : State} (h : s.Inv) {addr : Nat} (ha : addr < 4096) (val : Byte) :
    (s.loadByte addr val).Inv :=
  h.of_control_eq rfl rfl rfl rfl (Memory.wf_write h.mem_wf ha val)

theorem loadRom_keeps_inv {s t : State} {rom : List Byte} (h : s.Inv) (ht : s.loadRom rom = .next t) : t.Inv := by
  obtain ⟨hl, rfl⟩ := State.loadRom_next ht
  exact h.of_control_eq rfl rfl rfl rfl (Memory.wf_writeBytes h.mem_wf (by omega))

theorem setKeypad_keeps_inv {s : State} (h : s.Inv) (k : Vector Bool 16) : (s.setKeypad k).Inv :=
  h.of_control_eq rfl rfl rfl rfl h.mem_wf

theorem tick_keeps_inv {s : State} (h : s.Inv) : s.tick.Inv := h.of_control_eq rfl rfl rfl rfl h.mem_wf

theorem clearDC_keeps_inv {s : State} (h : s.Inv) : s.clearDC.Inv := h.of_control_eq rfl rfl rfl rfl h.mem_wf

theorem applyOp_keeps_inv {op : HostOp} {s t : State} (h : s.Inv) (ht : applyOp op s = .next t) : t.Inv := by
  obtain ⟨-, rfl⟩ | ⟨addr, val, -, -, ha, rfl⟩ | ⟨k, -, rfl⟩ | ⟨b, u, -, hu, rfl⟩ | ⟨-, rfl⟩ | ⟨-, rfl⟩ | ⟨-, rfl⟩ :=
    applyOp_next ht
  · exact hostReset_inv s
  · exact loadByte_keeps_inv h ha val
  · exact setKeypad_keeps_inv h k
  · exact stepWith_keeps_inv h (stepWith_of_next hu)
  · exact tick_keeps_inv h
  · exact clearDC_keeps_inv h
  · exact h

/-- Settles O16, by induction on the run: each of its moves keeps the invariant, and a reset gives it. -/
theorem everyReachableStateMeetsTheInvariant : Obligations.EveryReachableStateMeetsTheInvariant := by
  intro b s hr
  induction hr with
  | reset font threshold => exact resetWith_inv font threshold
  | again => exact hostReset_inv _
  | load _ ht ih => exact applyOp_keeps_inv ih ht
  | loadRom _ _ ht ih => exact loadRom_keeps_inv ih ht
  | keypad k _ ih => exact setKeypad_keeps_inv ih k
  | tick _ ih => exact tick_keeps_inv ih
  | clear _ ih => exact clearDC_keeps_inv ih
  | step _ ht ih => exact step_keeps_inv ih ht
  | stepWith _ _ ht ih => exact stepWith_keeps_inv ih ht

end Sys2Proof.Machine
end

section
/-! What an instruction does, in two parts: what it writes to the state beside pc (`effect`) and the pc it goes to
(`nextPc`). Together with the fault table of 60_exceptions.md R182 they say all that `exec` can do (`exec_eq`), so that
a statement over all instructions is a case split over one of the parts. -/

namespace Sys2Proof.Machine

/-- What the instruction writes when it does not fault, pc apart. -/
def effect (i : Instr) (s : State) : State :=
  match i with
  | .cls => s.display (Vector.replicate 32 0)
  | .ret => s.pop
  | .call _ => if h : s.sp.val < 16 then s.push (s.pc + 2) h else s
  | .ldImm x nn => s.writeV x nn
  | .addImm x nn => s.writeV x (s.readV x + nn)
  | .ldReg x y => s.writeV x (s.readV y)
  | .orReg x y => s.writeV x (s.readV x ||| s.readV y)
  | .andReg x y => s.writeV x (s.readV x &&& s.readV y)
  | .xorReg x y => s.writeV x (s.readV x ^^^ s.readV y)
  | .addReg x y => (s.writeV x (s.readV x + s.readV y)).writeFlag (carry (s.readV x) (s.readV y))
  | .subReg x y => (s.writeFlag (noBorrow (s.readV x) (s.readV y))).writeV x (s.readV x - s.readV y)
  | .shr x _ => (s.writeFlag (outRight (s.readV x))).writeV x (s.readV x >>> 1)
  | .subnReg x y => (s.writeFlag (noBorrow (s.readV y) (s.readV x))).writeV x (s.readV y - s.readV x)
  | .shl x _ => (s.writeFlag (outLeft (s.readV x))).writeV x (s.readV x <<< 1)
  | .ldI nnn => s.writeI (addrOperand nnn)
  | .rnd x nn => (s.writeV x (s.draw &&& nn)).useDraw
  | .drw x y n => (s.display (s.drawn x y n)).writeFlag (s.collision x y n)
  | .ldVxDt x => s.writeV x s.dt
  | .ldVxK x => s.writeV x (s.lowestKey.elim (s.readV x) keyByte)
  | .ldDtVx x => s.writeDt (s.readV x)
  | .addI x =>
    (s.writeI (s.i + byteOperand (s.readV x))).writeFlag (s.indexOverflow (s.i + byteOperand (s.readV x)))
  | .ldF x => s.writeI (glyphAddr (s.readV x))
  | .ldB x => s.writeMem (s.mem.writeBytes (s.ea 0) (digits (s.readV x)))
  | .storeRegs x => s.writeMem (s.mem.writeBytes (s.ea 0) (s.regsTo x))
  | .loadRegs x => s.writeRegs (s.regsLoaded x)
  | .jp _ | .jpV0 _ | .ldStVx _ => s
  | .seImm _ _ | .sneImm _ _ | .seReg _ _ | .sneReg _ _ | .skp _ | .sknp _ => s

/-- Whether the key that `V[x]` names is there and is as wanted (41_skip.md R114, R115). -/
def State.keyIs (s : State) (x : Reg) (want : Bool) : Bool := s.keys[(s.readV x).toNat]? == some want

/-- Where the instruction goes when it does not fault (10_state.md R23). -/
def nextPc (i : Instr) (s : State) : Word :=
  match i with
  | .ret => s.top
  | .jp nnn | .call nnn => addrOperand nnn
  | .jpV0 nnn => s.offsetTarget nnn
  | .seImm x nn => s.pc + if s.readV x == nn then 4 else 2
  | .sneImm x nn => s.pc + if s.readV x != nn then 4 else 2
  | .seReg x y => s.pc + if s.readV x == s.readV y then 4 else 2
  | .sneReg x y => s.pc + if s.readV x != s.readV y then 4 else 2
  | .skp x => s.pc + if s.keyIs x true then 4 else 2
  | .sknp x => s.pc + if s.keyIs x false then 4 else 2
  | _ => s.pc + 2

/-! ## The operations that can fault -/

theorem State.advance_eq_jumpTo (s : State) : s.advance = s.jumpTo (s.pc + 2) := rfl

theorem State.skipIf_eq_jumpTo (s : State) (c : Bool) : s.skipIf c = s.jumpTo (s.pc + if c then 4 else 2) :=
  s.skipIf_eq c

/-- The bounds check faults as the rows of the table for Dxyn, Fx33, Fx55 and Fx65 say. -/
theorem State.checked_eq (s t : State) (last : Nat) : s.checked last t =
    .next ((if s.i.toNat + last > 0xFFF then some (Trap.memoryBounds s.i) else none).elim t s.latch) := by
  by_cases h : s.i.toNat + last > 0xFFF
  · rw [checked_of_gt h, if_pos h]; rfl
  · rw [checked_of_le (by omega), if_neg h]; rfl

/-- The key skips fault as their row of the table says. -/
theorem State.skipOnKey_eq (s : State) (x : Reg) (want : Bool) : s.skipOnKey x want =
    .next ((if (s.readV x).toNat > 15 then some (Trap.keyIndex (s.readV x)) else none).elim
      (s.jumpTo (s.pc + if s.keyIs x want then 4 else 2)) s.latch) := by
  by_cases h : (s.readV x).toNat > 15
  · rw [skipOnKey_of_gt h, if_pos h]; rfl
  · have hk : (s.readV x).toNat < 16 := by omega
    have hkey : s.keyIs x want = (s.keys[(s.readV x).toNat] == want) := by simp [keyIs, hk]
    rw [skipOnKey_of_key (k := ⟨_, hk⟩) rfl, if_neg h, hkey, skipIf_eq_jumpTo]; rfl

/-- Writing a register's own value changes nothing. -/
theorem State.writeV_readV (s : State) (x : Reg) : s.writeV x (s.readV x) = s := by
  simp [writeV, readV]

theorem execRet_eq (s : State) : execRet s =
    .next ((faultOf s .ret).elim ((effect .ret s).jumpTo (nextPc .ret s)) s.latch) := by
  by_cases h : s.sp.val = 0 <;> simp [execRet, faultOf, effect, nextPc, h]

theorem execCall_eq (nnn : Addr12) (s : State) : execCall nnn s =
    .next ((faultOf s (.call nnn)).elim ((effect (.call nnn) s).jumpTo (nextPc (.call nnn) s)) s.latch) := by
  by_cases h : s.sp.val < 16
  · simp [execCall, faultOf, effect, nextPc, h, h.ne]
  · simp [execCall, faultOf, show s.sp.val = 16 by omega]

theorem effect_call_of_lt {s : State} (h : s.sp.val < 16) (nnn : Addr12) :
    effect (.call nnn) s = s.push (s.pc + 2) h := dif_pos h

theorem effect_call_of_not_lt {s : State} (h : ¬s.sp.val < 16) (nnn : Addr12) : effect (.call nnn) s = s := dif_neg h

theorem execDrw_eq (x y : Reg) (n : Fin 16) (s : State) : execDrw x y n s =
    .next ((faultOf s (.drw x y n)).elim ((effect (.drw x y n) s).jumpTo (nextPc (.drw x y n) s)) s.latch) := by
  by_cases h : n.val = 0
  · have hf : faultOf s (.drw x y n) = none := if_neg (by omega)
    simp [execDrw, h, hf, effect, nextPc, State.advance_eq_jumpTo]
  · simp [execDrw, faultOf, h, State.checked_eq, Nat.pos_of_ne_zero h, effect, nextPc, State.advance_eq_jumpTo]

theorem execLdVxK_eq (x : Reg) (s : State) : execLdVxK x s =
    .next ((effect (.ldVxK x) s).jumpTo (nextPc (.ldVxK x) s)) := by
  simp only [execLdVxK, effect, nextPc]
  cases s.lowestKey with
  | some k => rfl
  | none => simp only [Option.elim_none, State.writeV_readV, State.advance_eq_jumpTo]

/-- All an instruction can do: the fault that the table of 60_exceptions.md R182 gives for the state, changing nothing
else, or its effect and its next pc. -/
theorem exec_eq (i : Instr) (s : State) :
    exec i s = .next ((faultOf s i).elim ((effect i s).jumpTo (nextPc i s)) s.latch) := by
  cases i with
  | ret => exact execRet_eq s
  | call nnn => exact execCall_eq nnn s
  | drw x y n => exact execDrw_eq x y n s
  | ldVxK x => exact execLdVxK_eq x s
  | skp x | sknp x => exact s.skipOnKey_eq x _
  | ldB x | storeRegs x | loadRegs x => exact s.checked_eq _ _
  | seImm | sneImm | seReg | sneReg => exact congrArg Host.Outcome.next (s.skipIf_eq_jumpTo _)
  | cls | jp | jpV0 | ldImm | addImm | ldReg | orReg | andReg | xorReg | addReg | subReg | shr | subnReg | shl | ldI
  | rnd | ldVxDt | ldDtVx | ldStVx | addI | ldF => rfl

/-- Everything an instruction that answers `t` did. -/
theorem exec_next {i : Instr} {s t : State} (h : exec i s = .next t) :
    (∃ f, faultOf s i = some f ∧ t = s.latch f) ∨ (faultOf s i = none ∧ t = (effect i s).jumpTo (nextPc i s)) := by
  rw [exec_eq] at h
  obtain rfl := Host.Outcome.next.inj h
  cases hf : faultOf s i with
  | some f => exact .inl ⟨f, rfl, rfl⟩
  | none => exact .inr ⟨rfl, rfl⟩

/-- An instruction that leaves the machine running did not fault. -/
theorem exec_next_of_running {i : Instr} {s t : State} (h : exec i s = .next t) (ht : t.status = .running) :
    t = (effect i s).jumpTo (nextPc i s) := by
  obtain ⟨f, -, rfl⟩ | ⟨-, rfl⟩ := exec_next h
  · exact nomatch ht
  · rfl

end Sys2Proof.Machine
end

section
/-! Frames: what each update of the state leaves as it was, part by part, and from there what every instruction leaves as
it was (10_state.md R20 to R29). -/

namespace Sys2Proof.Machine

/-! ## The parts an update keeps -/

namespace Part

variable (p : Part) (s : State)

@[simp] theorem same_refl : p.same s s := by cases p <;> simp [same]

variable {p} {s}

theorem same_trans {t u : State} (hst : p.same s t) (htu : p.same t u) : p.same s u := by
  cases p <;> simp_all [same]

variable (p) (s)

@[simp] theorem same_writeV (x : Reg) (b : Byte) : p.same s (s.writeV x b) := by cases p <;> simp [same]
@[simp] theorem same_writeFlag (b : Bool) : p.same s (s.writeFlag b) := p.same_writeV s vf _
@[simp] theorem same_writeRegs (w : Vector Byte 16) : p.same s (s.writeRegs w) := by cases p <;> simp [same]
@[simp] theorem same_jumpTo (w : Word) : p.same s (s.jumpTo w) := by cases p <;> simp [same]
@[simp] theorem same_latch (f : Trap) : p.same s (s.latch f) := by cases p <;> simp [same]

variable {p}

theorem same_writeI (hp : p ∉ [index]) (w : Word) : p.same s (s.writeI w) := by
  cases p <;> simp_all [same]

theorem same_push (hp : p ∉ [stack]) (w : Word) (h : s.sp.val < 16) : p.same s (s.push w h) := by
  cases p <;> simp_all [same]

theorem same_pop (hp : p ∉ [stack]) : p.same s s.pop := by cases p <;> simp_all [same]

theorem same_writeMem (hp : p ∉ [memory]) {m : Memory} (hm : m.font = s.mem.font) : p.same s (s.writeMem m) := by
  cases p <;> simp_all [same]

theorem same_display (hp : p ∉ [framebuffer, displayChanged]) (g : Framebuffer) : p.same s (s.display g) := by
  cases p <;> simp_all [same]

theorem same_clearDC (hp : p ∉ [displayChanged]) : p.same s s.clearDC := by cases p <;> simp_all [same]

theorem same_setKeypad (hp : p ∉ [keypad]) (k : Vector Bool 16) : p.same s (s.setKeypad k) := by
  cases p <;> simp_all [same]

theorem same_writeDt (hp : p ∉ [delayTimer]) (b : Byte) : p.same s (s.writeDt b) := by cases p <;> simp_all [same]

theorem same_useDraw (hp : p ∉ [draw]) : p.same s s.useDraw := by cases p <;> simp_all [same]

end Part

/-! ## What an instruction keeps -/

/-- An instruction's effect writes the parts named for it and no other. -/
theorem effect_same {i : Instr} {p : Part} (hp : p ∉ writtenParts i) (s : State) : p.same s (effect i s) := by
  cases i with
  | jp | jpV0 | ldStVx | seImm | sneImm | seReg | sneReg | skp | sknp => exact p.same_refl s
  | ldImm | addImm | ldReg | orReg | andReg | xorReg | ldVxDt | ldVxK => exact p.same_writeV s _ _
  | loadRegs => exact p.same_writeRegs s _
  | addReg | subReg | shr | subnReg | shl => exact Part.same_trans (p.same_writeV s _ _) (p.same_writeV _ _ _)
  | rnd => exact Part.same_trans (p.same_writeV s _ _) (Part.same_useDraw _ hp)
  | ldI | ldF => exact Part.same_writeI s hp _
  | addI => exact Part.same_trans (Part.same_writeI s hp _) (p.same_writeFlag _ _)
  | ldDtVx => exact Part.same_writeDt s hp _
  | ldB | storeRegs => exact Part.same_writeMem s hp (Memory.writeBytes_font _ _ _)
  | cls => exact Part.same_display s hp _
  | drw => exact Part.same_trans (Part.same_display s hp _) (p.same_writeFlag _ _)
  | ret => exact Part.same_pop s hp
  | call =>
    by_cases h : s.sp.val < 16
    · rw [effect_call_of_lt h]; exact Part.same_push s hp _ _
    · rw [effect_call_of_not_lt h]; exact p.same_refl s

theorem State.readV_writeV_of_not_mem (s : State) {x r : Reg} (hr : r ∉ [x]) (b : Byte) :
    (s.writeV x b).readV r = s.readV r := by
  simp_all

theorem State.readV_writeFlag_of_ne (s : State) {r : Reg} (hr : r ≠ vf) (b : Bool) :
    (s.writeFlag b).readV r = s.readV r := by
  rw [readV_writeFlag, if_neg hr]

theorem State.readV_regsLoaded_of_not_mem (s : State) {x r : Reg}
    (hr : r ∉ (List.finRange 16).filter fun k => k ≤ x) : (s.writeRegs (s.regsLoaded x)).readV r = s.readV r := by
  have hx : ¬r ≤ x := by simpa using hr
  rw [readV_writeRegs, regsLoaded_get, if_neg hx]

/-- An instruction's effect writes the registers it names as its destination, and VF if it is one of the seven. -/
theorem effect_readV {i : Instr} {r : Reg} (hr : r ∉ destRegs i) (hvf : ¬(writesFlag i = true ∧ r = vf)) (s : State) :
    (effect i s).readV r = s.readV r := by
  cases i with
  | cls | ret | jp | jpV0 | ldI | ldF | ldDtVx | ldStVx | ldB | storeRegs | seImm | sneImm | seReg | sneReg | skp
  | sknp => rfl
  | call =>
    by_cases h : s.sp.val < 16
    · rw [effect_call_of_lt h]; rfl
    · rw [effect_call_of_not_lt h]
  | ldImm | addImm | ldReg | orReg | andReg | xorReg | ldVxDt | ldVxK | rnd => exact s.readV_writeV_of_not_mem hr _
  | loadRegs => exact s.readV_regsLoaded_of_not_mem hr
  | addI | drw =>
    have hne : r ≠ vf := fun h => hvf ⟨rfl, h⟩
    simp [effect, hne]
  | addReg =>
    exact (State.readV_writeFlag_of_ne _ (fun h => hvf ⟨rfl, h⟩) _).trans (s.readV_writeV_of_not_mem hr _)
  | subReg | shr | subnReg | shl =>
    exact (State.readV_writeV_of_not_mem _ hr _).trans (s.readV_writeFlag_of_ne (fun h => hvf ⟨rfl, h⟩) _)

/-- VF after an instruction that writes the flag last, or writes another register after it. -/
theorem effect_flag {i : Instr} (hi : writesFlag i = true) (hd : vf ∉ destRegs i ∨ ∃ x y, i = .addReg x y) (s : State) :
    ∃ b, (effect i s).readV vf = flagByte b := by
  cases i with
  | addReg | addI | drw => exact ⟨_, State.readV_writeFlag _ _ vf⟩
  | subReg | shr | subnReg | shl =>
    obtain hd | ⟨x, y, h⟩ := hd
    · exact ⟨_, (State.readV_writeV_of_not_mem _ hd _).trans (s.readV_writeFlag _ vf)⟩
    · exact nomatch h
  | _ => exact nomatch hi

theorem nextPc_of_not_setsPc {i : Instr} (hp : setsPc i = false) (hs : isSkip i = false) (s : State) :
    nextPc i s = s.pc + 2 := by
  cases i with
  | ret | jp | call | jpV0 => exact nomatch hp
  | seImm | sneImm | seReg | sneReg | skp | sknp => exact nomatch hs
  | _ => rfl

theorem nextPc_of_isSkip {i : Instr} (hs : isSkip i = true) (s : State) :
    ∃ c : Bool, nextPc i s = s.pc + if c then 4 else 2 := by
  cases i with
  | seImm | sneImm | seReg | sneReg | skp | sknp => exact ⟨_, rfl⟩
  | _ => exact nomatch hs

/-- Settles O13: the next pc is the generic advance, or the advance a skip's condition picks. -/
theorem pcAdvancesByTwoUnlessStatedOtherwise : Obligations.PcAdvancesByTwoUnlessStatedOtherwise := by
  intro i s t _ h ht hp
  obtain rfl := exec_next_of_running h ht
  refine ⟨fun hs => nextPc_of_not_setsPc hp hs s, fun hs => ?_⟩
  obtain ⟨c, hc⟩ := nextPc_of_isSkip hs s
  rw [State.jumpTo_pc, hc]
  cases c
  · exact .inl rfl
  · exact .inr rfl

/-- Settles O18: a fault writes no register, and an effect writes those named for it. -/
theorem onlyNamedRegistersAndTheFlagChange : Obligations.OnlyNamedRegistersAndTheFlagChange := by
  intro i s t r h hr hvf
  obtain ⟨f, -, rfl⟩ | ⟨-, rfl⟩ := exec_next h
  · rfl
  · exact effect_readV hr hvf s

/-- Settles O19: what stands in VF is the flag, as VF holds it. -/
theorem flagIsAlwaysZeroOrOne : Obligations.FlagIsAlwaysZeroOrOne := by
  intro i s t _ h ht hi hd
  obtain rfl := exec_next_of_running h ht
  obtain ⟨b, hb⟩ := effect_flag hi hd s
  rw [State.jumpTo_readV, hb]
  exact flagByte_zero_or_one b

/-- Settles O20: a fault writes no part, and an effect writes those named for it. -/
theorem eachPartIsWrittenOnlyByItsInstructions : Obligations.EachPartIsWrittenOnlyByItsInstructions := by
  intro i s t p h hp
  obtain ⟨f, -, rfl⟩ | ⟨-, rfl⟩ := exec_next h
  · exact p.same_latch s f
  · exact Part.same_trans (effect_same hp s) (p.same_jumpTo _ _)

end Sys2Proof.Machine
end

section
/-! Noninterference: an instruction that does not read a piece of state does the same whatever stands there
(10_state.md R24, R28, R29, R43). -/

namespace Sys2Proof.Machine

/-- `u` replaces a piece of state apart from pc and STATUS, and how does not depend on them. -/
structure keepsControl (u : State → State) : Prop where
  latch  : ∀ s f, (u s).latch f = u (s.latch f)
  jumpTo : ∀ s w, (u s).jumpTo w = u (s.jumpTo w)

/-- The instruction reads nothing that `u` replaces, and writes nothing there. -/
structure ignores (i : Instr) (u : State → State) : Prop where
  faultOf_eq : ∀ s, faultOf (u s) i = faultOf s i
  effect_eq  : ∀ s, effect i (u s) = u (effect i s)
  nextPc_eq  : ∀ s, nextPc i (u s) = nextPc i s

/-- An instruction that ignores what `u` replaces does the same after `u` as before it. -/
theorem exec_of_ignores {u : State → State} {i : Instr} (hu : keepsControl u) (hi : ignores i u) {s t : State}
    (h : exec i s = .next t) : exec i (u s) = .next (u t) := by
  rw [exec_eq, hi.faultOf_eq, hi.effect_eq, hi.nextPc_eq, hu.jumpTo]
  obtain ⟨f, hf, rfl⟩ | ⟨hf, rfl⟩ := exec_next h
  · rw [hf, ← hu.latch]; rfl
  · rw [hf]; rfl

/-- A call ignores whatever is apart from SP, pc and the stack. -/
theorem ignores_call {u : State → State} (nnn : Addr12) (hsp : ∀ s, (u s).sp = s.sp) (hpc : ∀ s, (u s).pc = s.pc)
    (hpush : ∀ s (h : s.sp.val < 16), (u s).push (s.pc + 2) (hsp s ▸ h) = u (s.push (s.pc + 2) h)) :
    ignores (.call nnn) u where
  faultOf_eq s := by simp only [faultOf, hsp, hpc]
  nextPc_eq _ := rfl
  effect_eq s := by
    by_cases h : s.sp.val < 16
    · rw [effect_call_of_lt h, effect_call_of_lt (hsp s ▸ h), hpc, hpush]
    · rw [effect_call_of_not_lt h, effect_call_of_not_lt (hsp s ▸ h)]

theorem ignores_setKeypad {i : Instr} (h : ∀ x, i ≠ .skp x ∧ i ≠ .sknp x ∧ i ≠ .ldVxK x) (k : Vector Bool 16) :
    ignores i (State.setKeypad · k) := by
  cases i with
  | skp x => exact absurd rfl (h x).1
  | sknp x => exact absurd rfl (h x).2.1
  | ldVxK x => exact absurd rfl (h x).2.2
  | call nnn => exact ignores_call nnn (fun _ => rfl) (fun _ => rfl) fun _ _ => rfl
  | _ => exact ⟨fun _ => rfl, fun _ => rfl, fun _ => rfl⟩

theorem ignores_present {i : Instr} (h : ∀ x nn, i ≠ .rnd x nn) (b : Option Byte) : ignores i (State.present · b) := by
  cases i with
  | rnd x nn => exact absurd rfl (h x nn)
  | call nnn => exact ignores_call nnn (fun _ => rfl) (fun _ => rfl) fun _ _ => rfl
  | _ => exact ⟨fun _ => rfl, fun _ => rfl, fun _ => rfl⟩

theorem ignores_writeDt {i : Instr} (h : ∀ x, i ≠ .ldVxDt x ∧ i ≠ .ldDtVx x) (d : Byte) :
    ignores i (State.writeDt · d) := by
  cases i with
  | ldVxDt x => exact absurd rfl (h x).1
  | ldDtVx x => exact absurd rfl (h x).2
  | call nnn => exact ignores_call nnn (fun _ => rfl) (fun _ => rfl) fun _ _ => rfl
  | _ => exact ⟨fun _ => rfl, fun _ => rfl, fun _ => rfl⟩

/-- Settles O21: every other instruction ignores the keypad, the byte and DT, and Fx15 overwrites DT. -/
theorem inputsAreReadOnlyByTheirInstructions : Obligations.InputsAreReadOnlyByTheirInstructions := by
  intro i s t h
  refine ⟨fun hi k => ?_, fun hi b => ?_, fun hi d => ?_, ?_⟩
  · exact exec_of_ignores ⟨fun _ _ => rfl, fun _ _ => rfl⟩ (ignores_setKeypad hi k) h
  · exact exec_of_ignores ⟨fun _ _ => rfl, fun _ _ => rfl⟩ (ignores_present hi b) h
  · exact exec_of_ignores ⟨fun _ _ => rfl, fun _ _ => rfl⟩ (ignores_writeDt hi d) h
  · rintro ⟨x, rfl⟩ d
    exact h

/-! ## Stack entries not in use -/

/-- `s` with the entries of `k` on the stack. -/
def State.withStk (s : State) (k : Vector Word 16) : State := { s with stk := k }

/-- `k` holds the same entries as the stack of `s` where they are in use. -/
def agreesInUse (s : State) (k : Vector Word 16) : Prop := ∀ j : Fin 16, j.val < s.sp.val → k[j] = s.stk[j]

theorem sameUpToDeadEntries_iff {s t : State} :
    sameUpToDeadEntries s t ↔ ∃ k, t = s.withStk k ∧ agreesInUse s k := by
  constructor
  · rintro ⟨ht, hk⟩
    exact ⟨t.stk, ht, hk⟩
  · rintro ⟨k, rfl, hk⟩
    exact ⟨rfl, hk⟩

theorem agreesInUse_of_same {s u : State} {k : Vector Word 16} (hk : agreesInUse s k) (h : Part.stack.same s u) :
    agreesInUse u k := by
  obtain ⟨hsp, hstk⟩ := h
  simpa only [agreesInUse, hsp, hstk] using hk

/-- The same word pushed on both stacks. -/
theorem agreesInUse_push {s : State} {k : Vector Word 16} (hk : agreesInUse s k) (h : s.sp.val < 16) (w : Word) :
    agreesInUse (s.push w h) (k.set s.sp.val w h) := by
  intro j hj
  have hj : j.val < s.sp.val + 1 := hj
  rw [State.push_stk, Fin.getElem_fin, Fin.getElem_fin, Vector.getElem_set, Vector.getElem_set]
  split
  · rfl
  · exact hk j (by omega)

theorem agreesInUse_pop {s : State} {k : Vector Word 16} (hk : agreesInUse s k) : agreesInUse s.pop k :=
  fun j hj => hk j (Nat.lt_of_lt_of_le hj (Nat.sub_le _ _))

/-- The entry on top is in use. -/
theorem top_withStk {s : State} {k : Vector Word 16} (hk : agreesInUse s k) (h : s.sp.val ≠ 0) :
    (s.withStk k).top = s.top :=
  hk ⟨s.sp.val - 1, by omega⟩ (show s.sp.val - 1 < s.sp.val by omega)

theorem faultOf_withStk (i : Instr) (s : State) (k : Vector Word 16) : faultOf (s.withStk k) i = faultOf s i := by
  cases i <;> rfl

/-- An instruction's effect, when it does not fault, on states that differ only in entries not in use. -/
theorem effect_withStk {i : Instr} {s : State} {k : Vector Word 16} (hk : agreesInUse s k) (hf : faultOf s i = none) :
    nextPc i (s.withStk k) = nextPc i s ∧
      ∃ k', effect i (s.withStk k) = (effect i s).withStk k' ∧ agreesInUse (effect i s) k' := by
  cases i with
  | call nnn =>
    have hsp : s.sp.val < 16 := by
      have : s.sp.val ≠ 16 := by simpa [faultOf] using hf
      omega
    rw [effect_call_of_lt hsp, effect_call_of_lt (s := s.withStk k) hsp]
    exact ⟨rfl, _, rfl, agreesInUse_push hk hsp _⟩
  | ret =>
    have hsp : s.sp.val ≠ 0 := by simpa [faultOf] using hf
    exact ⟨top_withStk hk hsp, k, rfl, agreesInUse_pop hk⟩
  | _ => exact ⟨rfl, k, rfl, agreesInUse_of_same hk (effect_same (by simp [writtenParts]) s)⟩

theorem exec_withStk {i : Instr} {s t : State} {k : Vector Word 16} (hk : agreesInUse s k) (h : exec i s = .next t) :
    ∃ k', exec i (s.withStk k) = .next (t.withStk k') ∧ agreesInUse t k' := by
  rw [exec_eq, faultOf_withStk]
  obtain ⟨f, hf, rfl⟩ | ⟨hf, rfl⟩ := exec_next h
  · rw [hf]
    exact ⟨k, rfl, hk⟩
  · obtain ⟨hpc, k', he, hk'⟩ := effect_withStk hk hf
    rw [hf, hpc, he]
    exact ⟨k', rfl, hk'⟩

theorem State.endCheck_of_leaves {s : State} (h : s.status = .running ∧ s.pc.toNat + 1 > 0xFFF) :
    s.endCheck = { s with status := .ended } := if_pos h

theorem State.endCheck_of_stays {s : State} (h : ¬(s.status = .running ∧ s.pc.toNat + 1 > 0xFFF)) : s.endCheck = s :=
  if_neg h

theorem endCheck_withStk (s : State) (k : Vector Word 16) : (s.withStk k).endCheck = s.endCheck.withStk k := by
  by_cases h : s.status = .running ∧ s.pc.toNat + 1 > 0xFFF
  · rw [State.endCheck_of_leaves h, State.endCheck_of_leaves (s := s.withStk k) h]; rfl
  · rw [State.endCheck_of_stays h, State.endCheck_of_stays (s := s.withStk k) h]

theorem step_withStk {s t : State} {k : Vector Word 16} (hk : agreesInUse s k) (h : step s = .next t) :
    ∃ k', step (s.withStk k) = .next (t.withStk k') ∧ agreesInUse t k' := by
  obtain ⟨hs, rfl⟩ | ⟨hs, -, w, e, hw, hd, rfl⟩ | ⟨hs, -, w, i, u, hw, hd, hu, rfl⟩ := step_next h
  · exact ⟨k, cycle_stopped hs, hk⟩
  · exact ⟨k, cycle_illegal hs hw hd, hk⟩
  · obtain ⟨k', he, hk'⟩ := exec_withStk hk hu
    refine ⟨k', ?_, agreesInUse_of_same hk' ⟨u.endCheck_sp, u.endCheck_stk⟩⟩
    rw [step, cycle_ok (s := s.withStk k) hs hw hd, he, finish_next, endCheck_withStk]

/-- Settles O22: a step of the other state writes the entries that a step of the first writes, and reads none but the
top one, which is in use. -/
theorem deadStackEntriesAreUnobservable : Obligations.DeadStackEntriesAreUnobservable := by
  intro s t s' hst hs
  obtain ⟨k, rfl, hk⟩ := sameUpToDeadEntries_iff.1 hst
  obtain ⟨k', ht, hk'⟩ := step_withStk hk hs
  exact ⟨s'.withStk k', ht, sameUpToDeadEntries_iff.2 ⟨k', rfl, hk'⟩, rfl⟩

end Sys2Proof.Machine
end

section
/-! The canonical form of memory: memories in it are determined by what they read as (log 8). -/

namespace Sys2Proof.Machine

/-- In a rising list, the cell found for an address is the one that is listed. -/
theorem mem_iff_findCell {cs : List Host.Cell} (h : cs.Pairwise fun c d => c.1 < d.1) (c : Host.Cell) :
    c ∈ cs ↔ findCell cs c.1 = some c.2 := by
  induction cs with
  | nil => simp [findCell]
  | cons d cs ih =>
    obtain ⟨hd, hcs⟩ := List.pairwise_cons.1 h
    rw [List.mem_cons, ih hcs, findCell]
    by_cases ha : d.1 = c.1
    · have hc : findCell cs c.1 ≠ some c.2 := fun hc => (hd c ((ih hcs).2 hc)).ne ha
      simp [ha, hc, Prod.ext_iff, eq_comm]
    · have hne : c ≠ d := fun hc => ha (congrArg Prod.fst hc.symm)
      simp [ha, hne]

/-- What a canonical memory lists for an address is what it reads as, where that differs from the reset contents. -/
theorem Memory.findCell_eq_some_iff {m : Memory} (h : m.wf) (a : Nat) (v : Byte) :
    findCell m.cells a = some v ↔ m.read a = v ∧ v ≠ m.background a := by
  unfold read
  cases hc : findCell m.cells a with
  | none => simp [eq_comm]
  | some u =>
    have hu : u ≠ m.background a := (h.2 (a, u) ((mem_iff_findCell h.1 (a, u)).2 hc)).2
    simp only [Option.some.injEq, Option.getD_some, iff_self_and]
    rintro rfl
    exact hu

theorem Memory.background_congr {m k : Memory} (h : m.font = k.font) (a : Nat) : m.background a = k.background a := by
  simp only [background, h]

/-- Settles O17: rising lists with the same cells are equal, and a cell is listed exactly where memory reads as other
than the reset contents. -/
theorem canonicalMemoriesReadingAlikeAreEqual : Obligations.CanonicalMemoriesReadingAlikeAreEqual := by
  intro m k hm hk hfont hread
  have hcells : m.cells = k.cells := by
    refine hm.1.eq_of_mem_iff hk.1 fun c => ?_
    rw [mem_iff_findCell hm.1, mem_iff_findCell hk.1, Memory.findCell_eq_some_iff hm, Memory.findCell_eq_some_iff hk,
      hread, Memory.background_congr hfont]
  exact congrArg₂ Memory.mk hfont hcells

end Sys2Proof.Machine
end

section
/-! Reset, the host's operations and a stopped machine (10_state.md R33, R40 to R46, 60_exceptions.md R187). -/

namespace Sys2Proof.Machine

/-! ## The invariant, step by step -/

/-- A step answers a next state wherever a running machine can fetch (20_memory.md R59). -/
theorem step_answers {s : State} (h : s.status = .running → s.pc.toNat ≤ 0xFFE) : ∃ t, step s = .next t := by
  by_cases hs : s.status = .running
  · have hw := State.fetch_of_le (h hs)
    cases hd : decode (s.mem.read s.pc.toNat ++ s.mem.read (s.pc.toNat + 1)) with
    | error e => exact ⟨_, cycle_illegal hs hw hd⟩
    | ok i =>
      obtain ⟨t, ht, -⟩ := exec_goesOnOrFaults i s
      exact ⟨t.endCheck, by rw [step, cycle_ok hs hw hd, ht, finish_next]⟩
  · exact ⟨s, cycle_stopped hs⟩

/-- Settles O15: a state that meets the invariant can fetch or is stopped, and every move keeps the invariant. -/
theorem everyStepKeepsTheInvariant : Obligations.EveryStepKeepsTheInvariant := by
  intro s h
  obtain ⟨t, ht⟩ := step_answers h.fetchable
  exact ⟨⟨t, ht, step_keeps_inv h ht⟩, fun _ _ => applyOp_keeps_inv h, fun _ _ => loadRom_keeps_inv h⟩

/-- Settles O14, the default parameters being one choice of them. -/
theorem resetMeetsTheInvariant : Obligations.ResetMeetsTheInvariant :=
  ⟨resetWith_inv defaultFont defaultFx1eThreshold, resetWith_inv⟩

/-! ## A stopped machine -/

theorem step_stopped {s : State} (h : s.status ≠ .running) : step s = .next s := cycle_stopped h

/-- Settles O9: a stopped machine does not move, and the byte presented to it is taken back. -/
theorem stoppedMachineStepsToItself : Obligations.StoppedMachineStepsToItself := by
  intro s h
  refine ⟨step_stopped h, fun b hb => ?_⟩
  have hstep : step { s with rnd := some b } = .next { s with rnd := some b } := step_stopped h
  rw [stepWith_of_next hstep, ← hb]

/-- Settles O59: no operation but `Reset` writes STATUS, and a step of a stopped machine does nothing. -/
theorem onlyResetLeavesAStop : Obligations.OnlyResetLeavesAStop := by
  refine fun s => ⟨fun hs op t hop h => ?_, s.hostReset, rfl, rfl, rfl⟩
  obtain ⟨hreset, -⟩ | ⟨addr, val, -, -, -, rfl⟩ | ⟨k, -, rfl⟩ | ⟨b, u, -, hu, rfl⟩ | ⟨-, rfl⟩ | ⟨-, rfl⟩ | ⟨-, rfl⟩ :=
    applyOp_next h
  · exact absurd hreset hop
  · rfl
  · rfl
  · have hstep : step { s with rnd := some b } = .next { s with rnd := some b } := step_stopped hs
    obtain rfl := Host.Outcome.next.inj (hstep.symm.trans hu)
    rfl
  · rfl
  · rfl
  · rfl

/-! ## Reset -/

/-- The font stands at the bottom of memory, five bytes to a glyph (10_state.md R31). -/
theorem Memory.background_glyph (m : Memory) (d : Fin 16) (k : Fin 5) :
    m.background (5 * d.val + k.val) = (m.font[d])[k] := by
  have hd : (5 * d.val + k.val) / 5 = d.val := by omega
  have hk : (5 * d.val + k.val) % 5 = k.val := by omega
  simp [background, hd, hk, show 5 * d.val + k.val < 80 by omega]

theorem Memory.background_of_ge (m : Memory) {a : Nat} (h : 80 ≤ a) : m.background a = 0 := dif_neg (by omega)

/-- Settles O56: nothing is listed after reset, so memory reads as its background; the rest is zero as written. -/
theorem resetLeavesTheTable : Obligations.ResetLeavesTheTable := by
  rintro font threshold s rfl
  have hread : ∀ a, (State.resetWith font threshold).mem.read a =
      Memory.background (State.resetWith font threshold).mem a := fun _ => rfl
  refine ⟨rfl, fun d k => ?_, fun a ha => ?_, fun r => ?_, rfl, rfl, fun k => ?_, fun row col => ?_, rfl, fun k => ?_,
    rfl, rfl⟩
  · rw [hread, Memory.background_glyph]; rfl
  · rw [hread, Memory.background_of_ge _ ha]
  · simp [State.resetWith, State.readV]
  · simp [State.resetWith]
  · simp [State.resetWith, Framebuffer.pixel]
  · simp [State.resetWith]

/-! ## What each operation of the host leaves alone -/

/-- Memory replaced, the font apart, changes nothing else. -/
theorem frame_writeMem (s : State) {m : Memory} (hm : m.font = s.mem.font) : frame [] [.memory] s (s.writeMem m) :=
  ⟨rfl, fun _ _ => rfl, fun _ hp => Part.same_writeMem s hp hm⟩

theorem frame_setKeypad (s : State) (k : Vector Bool 16) : frame [] [.keypad] s (s.setKeypad k) :=
  ⟨rfl, fun _ _ => rfl, fun _ hp => Part.same_setKeypad s hp k⟩

theorem frame_tick (s : State) : frame [] [.delayTimer] s s.tick :=
  ⟨rfl, fun _ _ => rfl, fun _ hp => Part.same_writeDt s hp _⟩

theorem frame_clearDC (s : State) : frame [] [.displayChanged] s s.clearDC :=
  ⟨rfl, fun _ _ => rfl, fun _ hp => Part.same_clearDC s hp⟩

/-- `Tick` counts down and stays at 0 (10_state.md R44; D7, log 21). -/
theorem tick_dt_toNat (s : State) : s.tick.dt.toNat = s.dt.toNat - 1 := by
  by_cases h : s.dt = 0
  · simp [State.tick, h]
  · rw [State.tick, State.writeDt_dt, if_neg h]
    bv_omega

/-- Settles O58: each operation is one update of the state, with its own frame. -/
theorem hostOperationsDoOnlyTheirJob : Obligations.HostOperationsDoOnlyTheirJob := fun s k =>
  ⟨⟨s.setKeypad k, rfl, fun _ => rfl, rfl, frame_setKeypad s k⟩, ⟨s.tick, rfl, tick_dt_toNat s, rfl, frame_tick s⟩,
    ⟨s.clearDC, rfl, rfl, rfl, frame_clearDC s⟩, rfl, rfl, fun _ _ => stepWith_of_next⟩

/-- Settles O57: the write of one byte, or of the ROM's bytes in order, where the check lets it through. -/
theorem loadByteStoresInTheProgramAreaOnly : Obligations.LoadByteStoresInTheProgramAreaOnly := by
  refine fun addr val s => ⟨fun hlo hhi => ?_, fun hout => applyOp_loadByte_of_not_mem (by omega), fun rom =>
    ⟨fun hrom => ?_, State.loadRom_of_gt⟩⟩
  · exact ⟨s.loadByte addr val, applyOp_loadByte_of_mem (by omega), fun a => s.mem.read_write addr a val, rfl,
      frame_writeMem s (s.mem.write_font addr val)⟩
  · refine ⟨_, State.loadRom_of_le hrom, fun k hk => ?_, fun a ha => ?_, rfl,
      frame_writeMem s (s.mem.writeBytes_font 0x200 rom)⟩
    · rw [State.writeMem_mem, Memory.read_writeBytes, if_pos (by omega), Nat.add_sub_cancel_left,
        List.getD_eq_getElem _ _ hk]
    · rw [State.writeMem_mem, Memory.read_writeBytes, if_neg (by omega)]

end Sys2Proof.Machine
end

section
/-! Code that a program writes over itself: what memory holds after the register dump of Fx55 (46_index_mem.md R173) is
what the next fetch reads, there being no copy of it in between (20_memory.md R63). -/

namespace Sys2Proof.Machine

/-- The register dump, where the bounds check lets it through (20_memory.md R58). -/
theorem exec_storeRegs_of_le {s : State} {x : Reg} (h : s.i.toNat + x.val ≤ 0xFFF) : exec (.storeRegs x) s =
    .next (s.writeMem (s.mem.writeBytes s.i.toNat (s.regsTo x))).advance :=
  State.checked_of_le h _

/-- The dump puts `V[k]` at `I + k`. -/
theorem read_writeBytes_regsTo (s : State) {x k : Reg} (h : k ≤ x) :
    (s.mem.writeBytes s.i.toNat (s.regsTo x)).read (s.i.toNat + k.val) = s.readV k := by
  have hk : k.val ≤ x.val := h
  rw [Memory.read_writeBytes, State.regsTo_length, if_pos (by omega), Nat.add_sub_cancel_left, State.regsTo_getD s h]

/-- After a store and the advance, the next fetch takes the two bytes from `pc + 2` on out of the memory stored to. -/
theorem State.fetch_advance_writeMem {s : State} (h : s.pc.toNat ≤ 0xFFC) (m : Memory) :
    (s.writeMem m).advance.fetch = some (m.read (s.pc.toNat + 2) ++ m.read (s.pc.toNat + 2 + 1)) := by
  have hpc : (s.writeMem m).advance.pc.toNat = s.pc.toNat + 2 := (pc_add_toNat_of_le (pc := s.pc) (by omega)).1
  rw [fetch_of_le (by omega), hpc, advance_mem, writeMem_mem]

/-- Settles O55: the next fetch is at `pc + 2` and the address after it, where the dump puts `V[k]` and `V[k + 1]`. -/
theorem storedCodeIsFetchedNext : Obligations.StoredCodeIsFetchedNext := by
  intro x k hk s t hpc hi hkx hover hexec
  obtain rfl := Host.Outcome.next.inj ((exec_storeRegs_of_le hi).symm.trans hexec)
  have hhigh := read_writeBytes_regsTo s (x := x) (k := k) (show k.val ≤ x.val by omega)
  have hlow := read_writeBytes_regsTo s (x := x) (k := ⟨k.val + 1, hk⟩) hkx
  rw [State.fetch_advance_writeMem hpc, ← hover, hhigh, Nat.add_assoc, hlow]

end Sys2Proof.Machine
end

section
/-! The decoder and the encoder are inverse to each other (30_encoding.md R70 to R83): from there the opcode map, the
illegal words, the words as the rules spell them, and the step that runs them. -/

namespace Sys2Proof

/-! ## Decode after encode -/

/-- The two bytes that memory holds of a word decode as the word does (30_encoding.md R70). -/
theorem decodeBytes_wordBytes (w : Word) : decodeBytes (wordBytes w) = decode w :=
  congrArg decode (bigEndian_bytes w)

/-- Every field that a format writes is read back: the family and the selector lead to the instruction again. -/
theorem decode_encode (i : Instr) : decode (encode i) = .ok i := by
  cases i with
  | cls | ret => rfl
  | jp | call | ldI | jpV0 | seImm | sneImm | ldImm | addImm | rnd | seReg | sneReg | drw =>
    simp [decode, encode, decodeFields]
  | ldReg | orReg | andReg | xorReg | addReg | subReg | shr | subnReg | shl =>
    simp [decode, encode, decodeFields, decode8]
  | skp | sknp => simp [decode, encode, decodeFields, decodeE]
  | ldVxDt | ldVxK | ldDtVx | ldStVx | addI | ldF | ldB | storeRegs | loadRegs =>
    simp [decode, encode, decodeFields, decodeF]

theorem decode_of_eq_encode {w : Word} {i : Instr} (h : w = encode i) : decode w = .ok i := h ▸ decode_encode i

/-- Settles O1: a word decodes as its two bytes do, and an encoded word to its instruction. -/
theorem decodeOfEncodeIsTheInstruction : Obligations.DecodeOfEncodeIsTheInstruction := fun i =>
  ⟨decode_encode i, (decodeBytes_wordBytes (encode i)).trans (decode_encode i)⟩

/-! ## Encode after decode -/

section OfSelector

variable {w : Word} {f : BitVec 4}

theorem encodeNNN_of_f (hf : (fields w).f = f) : encodeNNN f (fields w).nnn = w := hf ▸ encodeNNN_fields w

theorem encodeXNN_of_f (hf : (fields w).f = f) : encodeXNN f (fields w).x (fields w).nn = w := hf ▸ encodeXNN_fields w

theorem encodeXNN_of_nn {nn : Byte} (hf : (fields w).f = f) (hnn : (fields w).nn = nn) :
    encodeXNN f (fields w).x nn = w := hnn ▸ encodeXNN_of_f hf

theorem encodeXYN_of_f (hf : (fields w).f = f) : encodeXYN f (fields w).x (fields w).y (fields w).n = w :=
  hf ▸ encodeXYN_fields w

theorem encodeXYN_of_n {n : Fin 16} (hf : (fields w).f = f) (hn : (fields w).n = n) :
    encodeXYN f (fields w).x (fields w).y n = w := hn ▸ encodeXYN_of_f hf

end OfSelector

/-- Family 0, whose selector is the whole of `nnn` (30_encoding.md R76). -/
theorem encode_of_decode0 {w : Word} {i : Instr} (hf : (fields w).f = 0x0) :
    decode0 (fields w) = .ok i → encode i = w := by
  fun_cases decode0 (fields w) with
  | case1 hnnn | case2 _ hnnn => rintro ⟨⟩; rw [← encodeNNN_of_f hf, hnnn]; rfl
  | case3 => exact nofun

/-- Family 8, whose selector is `n`. -/
theorem encode_of_decode8 {w : Word} {i : Instr} (hf : (fields w).f = 0x8) :
    decode8 (fields w) = .ok i → encode i = w := by
  fun_cases decode8 (fields w) with
  | case10 => exact nofun
  | _ hn => rintro ⟨⟩; exact encodeXYN_of_n hf hn

/-- Family E, whose selector is `nn`. -/
theorem encode_of_decodeE {w : Word} {i : Instr} (hf : (fields w).f = 0xE) :
    decodeE (fields w) = .ok i → encode i = w := by
  fun_cases decodeE (fields w) with
  | case3 => exact nofun
  | _ => rintro ⟨⟩; exact encodeXNN_of_nn hf ‹_›

/-- Family F, whose selector is `nn`. -/
theorem encode_of_decodeF {w : Word} {i : Instr} (hf : (fields w).f = 0xF) :
    decodeF (fields w) = .ok i → encode i = w := by
  fun_cases decodeF (fields w) with
  | case10 => exact nofun
  | _ => rintro ⟨⟩; exact encodeXNN_of_nn hf ‹_›

/-- The family that the rows before the last leave over (30_encoding.md R76). -/
theorem family_eq_F {f : BitVec 4}
    (h : f ∉ ([0x0, 0x1, 0x2, 0x3, 0x4, 0x5, 0x6, 0x7, 0x8, 0x9, 0xA, 0xB, 0xC, 0xD, 0xE] : List (BitVec 4))) :
    f = 0xF := by
  revert f; decide

/-- The family, and where it has one the selector, are the literals that encode writes; the other fields are the
instruction's operands. -/
theorem encode_of_decode {w : Word} {i : Instr} : decode w = .ok i → encode i = w := by
  unfold decode
  fun_cases decodeFields (fields w) with
  | case1 hf => exact encode_of_decode0 hf
  | case2 hf | case3 hf | case13 hf | case14 hf => rintro ⟨⟩; exact encodeNNN_of_f hf
  | case4 hf | case5 hf | case8 hf | case9 hf | case15 hf => rintro ⟨⟩; exact encodeXNN_of_f hf
  | case6 hf hn | case11 hf hn => rintro ⟨⟩; exact encodeXYN_of_n hf hn
  | case7 | case12 => exact nofun
  | case10 hf => exact encode_of_decode8 hf
  | case16 hf => rintro ⟨⟩; exact encodeXYN_of_f hf
  | case17 hf => exact encode_of_decodeE hf
  | case18 => exact encode_of_decodeF (family_eq_F (by simp_all))

/-- Settles O2, family by family: encode writes every field where decode reads it. -/
theorem encodeOfDecodeIsTheWord : Obligations.EncodeOfDecodeIsTheWord := fun _ _ => encode_of_decode

/-! ## The opcode map -/

/-- A mask that keeps a field keeps its value. -/
theorem extractLsb'_eq_of_and {w mask m : Word} {start len : Nat} (h : w &&& mask = m)
    (hmask : mask.extractLsb' start len = BitVec.allOnes len) : w.extractLsb' start len = m.extractLsb' start len := by
  rw [← h, BitVec.extractLsb'_and, hmask, BitVec.and_allOnes]

theorem f_eq_of_and {w mask m : Word} (h : w &&& mask = m) (hmask : mask.extractLsb' 12 4 = BitVec.allOnes 4) :
    (fields w).f = (fields m).f := extractLsb'_eq_of_and h hmask

theorem n_eq_of_and {w mask m : Word} (h : w &&& mask = m) (hmask : mask.extractLsb' 0 4 = BitVec.allOnes 4) :
    (fields w).n = (fields m).n := congrArg indexOf (extractLsb'_eq_of_and h hmask)

theorem nn_eq_of_and {w mask m : Word} (h : w &&& mask = m) (hmask : mask.extractLsb' 0 8 = BitVec.allOnes 8) :
    (fields w).nn = (fields m).nn := extractLsb'_eq_of_and h hmask

/-- The word of an instruction meets its row (30_encoding.md R80). -/
theorem encode_and_mask (i : Instr) : encode i &&& i.row.2 = i.row.1 := by
  cases i with
  | cls | ret => rfl
  | jp | call | ldI | jpV0 => exact Laws.FitsRow.maskNNN _ _
  | seImm | sneImm | ldImm | addImm | rnd | drw => exact Laws.FitsRow.maskXNN _ _ _
  | seReg | sneReg | ldReg | orReg | andReg | xorReg | addReg | subReg | shr | subnReg | shl =>
    exact Laws.FitsRow.maskXY _ _ _ _
  | skp | sknp | ldVxDt | ldVxK | ldDtVx | ldStVx | addI | ldF | ldB | storeRegs | loadRegs =>
    exact Laws.FitsRow.maskX _ _ _

section Families

variable {w : Word}

theorem decode_of_f8 (hf : (fields w).f = 0x8) : decode w = decode8 (fields w) := by rw [decode, decodeFields, hf]; rfl

theorem decode_of_fE (hf : (fields w).f = 0xE) : decode w = decodeE (fields w) := by rw [decode, decodeFields, hf]; rfl

theorem decode_of_fF (hf : (fields w).f = 0xF) : decode w = decodeF (fields w) := by rw [decode, decodeFields, hf]; rfl

/-- A word that meets a row decodes to an instruction of that row: the mask keeps the family and the selector, which are
all that decode branches on (30_encoding.md R76). -/
theorem decode_of_row {j : Instr} (h : w &&& j.row.2 = j.row.1) : ∃ i, decode w = .ok i ∧ i.row = j.row := by
  cases j with simp only [Instr.row] at h
  | cls | ret =>
    obtain rfl : w = _ := BitVec.and_allOnes.symm.trans h
    exact ⟨_, rfl, rfl⟩
  | jp | call | seImm | sneImm | ldImm | addImm | ldI | jpV0 | rnd | drw =>
    rw [decode, decodeFields, f_eq_of_and h rfl]
    exact ⟨_, rfl, rfl⟩
  | seReg | sneReg =>
    rw [decode, decodeFields, f_eq_of_and h rfl, n_eq_of_and h rfl]
    exact ⟨_, rfl, rfl⟩
  | ldReg | orReg | andReg | xorReg | addReg | subReg | shr | subnReg | shl =>
    rw [decode_of_f8 (f_eq_of_and h rfl), decode8, n_eq_of_and h rfl]
    exact ⟨_, rfl, rfl⟩
  | skp | sknp =>
    rw [decode_of_fE (f_eq_of_and h rfl), decodeE, nn_eq_of_and h rfl]
    exact ⟨_, rfl, rfl⟩
  | ldVxDt | ldVxK | ldDtVx | ldStVx | addI | ldF | ldB | storeRegs | loadRegs =>
    rw [decode_of_fF (f_eq_of_and h rfl), decodeF, nn_eq_of_and h rfl]
    exact ⟨_, rfl, rfl⟩

end Families

/-- Settles O3: a word that decodes is the encoding of its instruction, which meets its row. -/
theorem rowMatchesExactlyWhenDecodedToIt : Obligations.RowMatchesExactlyWhenDecodedToIt := by
  refine fun w j => ⟨decode_of_row, ?_⟩
  rintro ⟨i, hi, hrow⟩
  rw [← hrow, ← encode_of_decode hi]
  exact encode_and_mask i

/-! ## The illegal words: what the selector of each family rejects (30_encoding.md R81) -/

theorem decode0_error_iff (d : Fields) : (∃ e, decode0 d = .error e) ↔ d.nnn ≠ 0x0E0 ∧ d.nnn ≠ 0x0EE := by
  fun_cases decode0 d <;> simp_all

theorem decode8_error_iff (d : Fields) :
    (∃ e, decode8 d = .error e) ↔ d.n ∈ ([0x8, 0x9, 0xA, 0xB, 0xC, 0xD, 0xF] : List (Fin 16)) := by
  obtain ⟨f, x, y, n, nn, nnn⟩ := d
  fin_cases n <;> simp [decode8]

theorem decodeE_error_iff (d : Fields) : (∃ e, decodeE d = .error e) ↔ d.nn ∉ ([0x9E, 0xA1] : List Byte) := by
  fun_cases decodeE d <;> simp_all

theorem decodeF_error_iff (d : Fields) : (∃ e, decodeF d = .error e) ↔
    d.nn ∉ ([0x07, 0x0A, 0x15, 0x18, 0x1E, 0x29, 0x33, 0x55, 0x65] : List Byte) := by
  fun_cases decodeF d <;> simp_all

/-- Settles O4, family by family: those with a selector reject what its table does not list, the others reject
nothing. -/
theorem illegalWordsAreExactlyTheSixClasses : Obligations.IllegalWordsAreExactlyTheSixClasses := by
  intro w
  unfold decode
  fun_cases decodeFields (fields w) with
  | case1 hf => simp [hf, decode0_error_iff]
  | case10 hf => simp [hf, decode8_error_iff]
  | case17 hf => simp [hf, decodeE_error_iff]
  | case18 =>
    have hf : (fields w).f = 0xF := family_eq_F (by simp_all)
    simp [hf, decodeF_error_iff]
  | case6 hf hn | case7 hf hn | case11 hf hn | case12 hf hn => simp [hf, hn]
  | _ hf => simp [hf]

/-- Settles O5: closed facts, each word evaluated. -/
theorem sampleWordsDecode : Obligations.SampleWordsDecode := by
  unfold Obligations.SampleWordsDecode
  decide

end Sys2Proof

namespace Sys2Proof.Machine

/-! ## The words as the rules spell them -/

/-- Settles O6: the word that a rule spells is the encoding, format by format. -/
theorem encodingsOfTheRulesDecode : Obligations.EncodingsOfTheRulesDecode := fun x y n nn nnn =>
  ⟨rfl, rfl,
    decode_of_eq_encode (ruleWordNNN_eq 0x1 nnn), decode_of_eq_encode (ruleWordNNN_eq 0x2 nnn),
    decode_of_eq_encode (ruleWordXNN_eq 0x3 x nn), decode_of_eq_encode (ruleWordXNN_eq 0x4 x nn),
    decode_of_eq_encode (ruleWordXY_eq 0x5 x y 0x0), decode_of_eq_encode (ruleWordXNN_eq 0x6 x nn),
    decode_of_eq_encode (ruleWordXNN_eq 0x7 x nn), decode_of_eq_encode (ruleWordXY_eq 0x8 x y 0x0),
    decode_of_eq_encode (ruleWordXY_eq 0x8 x y 0x1), decode_of_eq_encode (ruleWordXY_eq 0x8 x y 0x2),
    decode_of_eq_encode (ruleWordXY_eq 0x8 x y 0x3), decode_of_eq_encode (ruleWordXY_eq 0x8 x y 0x4),
    decode_of_eq_encode (ruleWordXY_eq 0x8 x y 0x5), decode_of_eq_encode (ruleWordXY_eq 0x8 x y 0x6),
    decode_of_eq_encode (ruleWordXY_eq 0x8 x y 0x7), decode_of_eq_encode (ruleWordXY_eq 0x8 x y 0xE),
    decode_of_eq_encode (ruleWordXY_eq 0x9 x y 0x0), decode_of_eq_encode (ruleWordNNN_eq 0xA nnn),
    decode_of_eq_encode (ruleWordNNN_eq 0xB nnn), decode_of_eq_encode (ruleWordXNN_eq 0xC x nn),
    decode_of_eq_encode (ruleWordXYN_eq 0xD x y n), decode_of_eq_encode (ruleWordX_eq 0xE x 0x9E),
    decode_of_eq_encode (ruleWordX_eq 0xE x 0xA1), decode_of_eq_encode (ruleWordX_eq 0xF x 0x07),
    decode_of_eq_encode (ruleWordX_eq 0xF x 0x0A), decode_of_eq_encode (ruleWordX_eq 0xF x 0x15),
    decode_of_eq_encode (ruleWordX_eq 0xF x 0x18), decode_of_eq_encode (ruleWordX_eq 0xF x 0x1E),
    decode_of_eq_encode (ruleWordX_eq 0xF x 0x29), decode_of_eq_encode (ruleWordX_eq 0xF x 0x33),
    decode_of_eq_encode (ruleWordX_eq 0xF x 0x55), decode_of_eq_encode (ruleWordX_eq 0xF x 0x65)⟩

/-! ## The step -/

/-- A running machine whose two bytes at pc decode to `i` runs it and then checks for the end. -/
theorem step_of_decode {s : State} {i : Instr} (hs : s.status = .running) (hpc : s.pc.toNat ≤ 0xFFE)
    (hd : decode (s.mem.read s.pc.toNat ++ s.mem.read (s.pc.toNat + 1)) = .ok i) :
    ∃ t, exec i s = .next t ∧ step s = .next t.endCheck := by
  obtain ⟨t, ht, -⟩ := exec_goesOnOrFaults i s
  exact ⟨t, ht, by rw [step, cycle_ok hs (s.fetch_of_le hpc) hd, ht, finish_next]⟩

/-- Settles O7, the termination check being the conditional of the statement. -/
theorem stepRunsTheDecodedInstruction : Obligations.StepRunsTheDecodedInstruction := fun _ _ => step_of_decode

/-- Settles O8: the cycle's branch for a fetched word that does not decode. -/
theorem illegalWordLatchesDecodeFault : Obligations.IllegalWordLatchesDecodeFault := fun s _ hs hpc hd =>
  cycle_illegal hs (s.fetch_of_le hpc) hd

/-- Settles O23: the meanings do not name the ignored operands, and Bnnn reads V[0] alone. -/
theorem ignoredFieldsHaveNoEffect : Obligations.IgnoredFieldsHaveNoEffect := by
  refine fun s x y y' nnn k b => ⟨rfl, rfl, rfl, fun hk => ⟨_, _, rfl, rfl, ?_⟩⟩
  have hV0 : (s.writeV k b).readV 0 = s.readV 0 := by rw [State.readV_writeV, if_neg hk.symm]
  simp only [State.jumpTo_pc, State.offsetTarget, hV0]

/-! ## A word placed where the next step fetches -/

/-- The bytes of a word, stored and read back, are the word (20_memory.md R52). -/
theorem Memory.read_writeBytes_wordBytes (m : Memory) (a : Nat) (w : Word) :
    (m.writeBytes a (wordBytes w)).read a ++ (m.writeBytes a (wordBytes w)).read (a + 1) = w := by
  have hhigh : (m.writeBytes a (wordBytes w)).read a = w.extractLsb' 8 8 := by simp [read_writeBytes, wordBytes]
  have hlow : (m.writeBytes a (wordBytes w)).read (a + 1) = w.extractLsb' 0 8 := by simp [read_writeBytes, wordBytes]
  rw [hhigh, hlow]
  exact bigEndian_bytes w

theorem State.placeWord_pc_le (s : State) (w : Word) : (s.placeWord w).pc.toNat ≤ 0xFFE := by
  simp only [placeWord]
  split
  · omega
  · decide

theorem decodeTableWord_toNat (w : Word) : decodeTableWord 16 w.toNat = (decode w).toOption := by
  rw [decodeTableWord, decodeBytes_wordBytes, Nat.mod_eq_of_lt w.isLt, BitVec.ofNat_toNat, BitVec.setWidth_eq]

theorem State.withFetchWord_toNat (s : State) (w : Word) : s.withFetchWord 16 w.toNat = s.placeWord w := by
  rw [withFetchWord, Nat.mod_eq_of_lt w.isLt, BitVec.ofNat_toNat, BitVec.setWidth_eq]

/-- Settles O60: the placed machine is running, can fetch, and fetches the placed word. -/
theorem placedWordIsRunByTheNextStep : Obligations.PlacedWordIsRunByTheNextStep := by
  intro s w i hd
  have hfetched : (s.placeWord w).mem.read (s.placeWord w).pc.toNat ++
      (s.placeWord w).mem.read ((s.placeWord w).pc.toNat + 1) = w := Memory.read_writeBytes_wordBytes _ _ w
  refine ⟨by rw [decodeTableWord_toNat, hd]; rfl, ?_⟩
  rw [State.withFetchWord_toNat]
  exact step_of_decode rfl (s.placeWord_pc_le w) (hfetched.symm ▸ hd)

end Sys2Proof.Machine
end

section
/-! Control transfer (40_flow.md): the frame of an instruction that does not fault, call and return as one push and one
pop, and the two jumps. -/

namespace Sys2Proof.Machine

/-! ## Frames of instructions -/

theorem frame_trans {regs : List Reg} {parts : List Part} {s t u : State} (hst : frame regs parts s t)
    (htu : frame regs parts t u) : frame regs parts s u := by
  obtain ⟨hstatus, hregs, hparts⟩ := hst
  obtain ⟨hstatus', hregs', hparts'⟩ := htu
  exact ⟨hstatus'.trans hstatus, fun r hr => (hregs' r hr).trans (hregs r hr),
    fun p hp => Part.same_trans (hparts p hp) (hparts' p hp)⟩

/-- No instruction writes STATUS but by a fault (60_exceptions.md R186). -/
theorem effect_status (i : Instr) (s : State) : (effect i s).status = s.status := by
  cases i with
  | call =>
    by_cases h : s.sp.val < 16
    · rw [effect_call_of_lt h]; rfl
    · rw [effect_call_of_not_lt h]
  | drw => rw [effect, State.writeFlag_status, State.display_status]
  | _ => rfl

/-- What an instruction that is none of the seven leaves alone when it does not fault (10_state.md R20 to R29). -/
theorem frame_effect_jumpTo {i : Instr} (hi : writesFlag i = false) (s : State) (w : Word) :
    frame (destRegs i) (writtenParts i) s ((effect i s).jumpTo w) := by
  refine ⟨effect_status i s, fun r hr => effect_readV hr ?_ s, fun p hp => ?_⟩
  · rw [hi]; exact fun h => nomatch h.1
  · exact Part.same_trans (effect_same hp s) (p.same_jumpTo _ w)

theorem exec_of_faultOf_eq_none {i : Instr} {s : State} (h : faultOf s i = none) :
    exec i s = .next ((effect i s).jumpTo (nextPc i s)) := by rw [exec_eq, h]; rfl

theorem exec_of_faultOf_eq_some {i : Instr} {s : State} {f : Trap} (h : faultOf s i = some f) :
    exec i s = .next (s.latch f) := by rw [exec_eq, h]; rfl

/-! ## Targets -/

theorem addrOperand_toNat (nnn : Addr12) : (addrOperand nnn).toNat = nnn.toNat :=
  BitVec.toNat_setWidth_of_le (by decide)

/-- The sum of a byte and twelve bits fits in a word (40_flow.md R103). -/
theorem State.offsetTarget_toNat (s : State) (nnn : Addr12) :
    (s.offsetTarget nnn).toNat = (s.readV 0).toNat + nnn.toNat := by
  have hv : (byteOperand (s.readV 0)).toNat = (s.readV 0).toNat := BitVec.toNat_setWidth_of_le (by decide)
  rw [offsetTarget, BitVec.toNat_add, hv, addrOperand_toNat, Nat.mod_eq_of_lt (by omega)]

/-! ## Call and return -/

theorem exec_call_of_lt {s : State} (h : s.sp.val < 16) (nnn : Addr12) :
    exec (.call nnn) s = .next ((s.push (s.pc + 2) h).jumpTo (addrOperand nnn)) := dif_pos h

theorem exec_ret_of_ne_zero {s : State} (h : s.sp.val ≠ 0) : exec .ret s = .next (s.pop.jumpTo s.top) := if_neg h

/-- The frame of a push of the return address and a jump. -/
theorem frame_call {s : State} (h : s.sp.val < 16) (nnn : Addr12) :
    frame [] [.stack] s ((s.push (s.pc + 2) h).jumpTo (addrOperand nnn)) :=
  effect_call_of_lt h nnn ▸ frame_effect_jumpTo (i := .call nnn) rfl s _

/-- The frame of a pop and a jump. -/
theorem frame_ret (s : State) (w : Word) : frame [] [.stack] s (s.pop.jumpTo w) :=
  frame_effect_jumpTo (i := .ret) rfl s w

theorem State.top_of_sp_eq {s : State} {k : Fin 16} (h : s.sp.val = k.val + 1) : s.top = s.stk[k] := by
  simp [top, h]

theorem State.push_stk_get {s : State} (h : s.sp.val < 16) (w : Word) (k : Fin 16) :
    (s.push w h).stk[k] = if k.val = s.sp.val then w else s.stk[k] := by
  simp [Vector.getElem_set, eq_comm]

theorem State.top_jumpTo_push {s : State} (h : s.sp.val < 16) (w target : Word) :
    ((s.push w h).jumpTo target).top = w := by
  rw [top_of_sp_eq (k := ⟨s.sp.val, h⟩) rfl]
  exact (push_stk_get h w _).trans (if_pos rfl)

/-- Settles O26: the push and the jump, or the row of StackOverflow in the fault table. -/
theorem callPushesTheReturnAddress : Obligations.CallPushesTheReturnAddress := by
  refine fun nnn s => ⟨fun h => ?_, fun h => exec_of_faultOf_eq_some (if_pos h)⟩
  exact ⟨_, exec_call_of_lt h nnn, rfl, addrOperand_toNat nnn, State.push_stk_get h (s.pc + 2), frame_call h nnn⟩

/-- Settles O27: the pop and the jump to the entry that was on top, or the row of StackUnderflow in the fault table. -/
theorem returnPopsTheTopEntry : Obligations.ReturnPopsTheTopEntry := by
  refine fun s => ⟨fun k h => ?_, fun h => exec_of_faultOf_eq_some (if_pos h)⟩
  refine ⟨_, exec_ret_of_ne_zero (by omega), ?_, State.top_of_sp_eq h, rfl, frame_ret s _⟩
  show s.sp.val - 1 = k.val
  omega

/-- Settles O28: the entry on top after the call is the one it pushed, and the return pops that one. -/
theorem callThenReturnResumesAfterTheCall : Obligations.CallThenReturnResumesAfterTheCall := by
  intro nnn s h
  refine ⟨_, _, exec_call_of_lt h nnn, exec_ret_of_ne_zero (Nat.succ_ne_zero s.sp.val),
    State.top_jumpTo_push h (s.pc + 2) _, rfl, fun k hk => ?_, frame_trans (frame_call h nnn) (frame_ret _ _)⟩
  exact (State.push_stk_get h _ k).trans (if_neg hk)

/-! ## Jumps -/

/-- Settles O24: the encoding, the twelve bits widened, and the frame of a jump. -/
theorem jumpSetsPcToItsAddress : Obligations.JumpSetsPcToItsAddress := fun nnn s =>
  ⟨decode_of_eq_encode (ruleWordNNN_eq 0x1 nnn), _, exec_of_faultOf_eq_none rfl, addrOperand_toNat nnn,
    frame_effect_jumpTo (i := .jp nnn) rfl s _⟩

/-- Settles O25: the encoding, the sum that does not wrap, and the frame of a jump. -/
theorem jumpWithOffsetAddsV0 : Obligations.JumpWithOffsetAddsV0 := fun nnn s =>
  ⟨decode_of_eq_encode (ruleWordNNN_eq 0xB nnn), _, exec_of_faultOf_eq_none rfl, s.offsetTarget_toNat nnn,
    frame_effect_jumpTo (i := .jpV0 nnn) rfl s _⟩

end Sys2Proof.Machine
end

section
/-! Conditional skips (41_skip.md): each answers the state with pc advanced by its condition; the key skips can fault, and
the register skips check their last nibble. -/

namespace Sys2Proof.Machine

/-! ## What a skip does -/

/-- A skip writes pc alone. -/
theorem frame_skipIf (s : State) (c : Bool) : frame [] [] s (s.skipIf c) := by
  refine ⟨s.skipIf_status c, fun r _ => s.skipIf_readV c r, fun p _ => ?_⟩
  rw [State.skipIf_eq_jumpTo]
  exact p.same_jumpTo s _

/-- An outcome that is a skip on the test `c` is the skip of the rules on the condition that `c` decides. -/
theorem skips_of_eq_skipIf {o : Out} {s : State} {c : Bool} {P : Prop} [Decidable P] (ho : o = .next (s.skipIf c))
    (hc : c = true ↔ P) : ∃ t, o = .next t ∧ t.pc = s.pc + (if P then 4 else 2) ∧ frame [] [] s t := by
  have hpc : (s.skipIf c).pc = s.pc + (if P then 4 else 2) := by simp only [State.skipIf_pc, hc]
  exact ⟨_, ho, hpc, frame_skipIf s c⟩

/-! ## The last nibble of 5xyn and 9xyn (90_conflicts.md C3) -/

theorem decode_encodeXYN_family5 (x y : Reg) {n : Fin 16} (hn : n ≠ 0) :
    decode (encodeXYN 0x5 x y n) = .error (.family5 n) := by
  simp [decode, decodeFields, hn]

theorem decode_encodeXYN_family9 (x y : Reg) {n : Fin 16} (hn : n ≠ 0) :
    decode (encodeXYN 0x9 x y n) = .error (.family9 n) := by
  simp [decode, decodeFields, hn]

/-! ## The six skips -/

/-- Settles O31: with a key of that index, the test of the key as it is wanted; above 15, the fault that is latched. -/
theorem keySkipsTestTheNamedKey : Obligations.KeySkipsTestTheNamedKey := by
  refine fun x s => ⟨fun k hk => ⟨?_, ?_⟩, fun h => ⟨?_, ?_⟩⟩
  · exact skips_of_eq_skipIf (State.skipOnKey_of_key hk true) beq_iff_eq
  · exact skips_of_eq_skipIf (State.skipOnKey_of_key hk false) beq_iff_eq
  · exact State.skipOnKey_of_gt h true
  · exact State.skipOnKey_of_gt h false

/-- Settles O29: the two encodings, and the tests of equality and inequality with the immediate. -/
theorem immediateSkipsCompare : Obligations.ImmediateSkipsCompare := fun x nn _ =>
  ⟨decode_of_eq_encode (ruleWordXNN_eq 0x3 x nn), decode_of_eq_encode (ruleWordXNN_eq 0x4 x nn),
    skips_of_eq_skipIf rfl beq_iff_eq, skips_of_eq_skipIf rfl bne_iff_ne⟩

/-- Settles O30: the two encodings, what another last nibble decodes to, and the tests of equality and inequality of the
registers. -/
theorem registerSkipsCompare : Obligations.RegisterSkipsCompare := by
  refine fun x y s => ⟨decode_of_eq_encode (ruleWordXY_eq 0x5 x y 0x0), decode_of_eq_encode (ruleWordXY_eq 0x9 x y 0x0),
    fun n hn => ⟨?_, ?_⟩, skips_of_eq_skipIf rfl beq_iff_eq, skips_of_eq_skipIf rfl bne_iff_ne⟩
  · exact (congrArg decode (ruleWordXYN_eq 0x5 x y n)).trans (decode_encodeXYN_family5 x y hn)
  · exact (congrArg decode (ruleWordXYN_eq 0x9 x y n)).trans (decode_encodeXYN_family9 x y hn)

end Sys2Proof.Machine
end

section
/-! Constants (42_const.md): the two immediate operations, the load of I and the masked random byte. None of the four
can fault, so each is its effect and the advance, and its frame is the one of every instruction. -/

namespace Sys2Proof.Machine

/-! ## Reads -/

theorem State.readV_writeV_same (s : State) (x : Reg) (b : Byte) : (s.writeV x b).readV x = b :=
  (s.readV_writeV x b x).trans (if_pos rfl)

@[simp] theorem State.endCheck_readV (s : State) (r : Reg) : s.endCheck.readV r = s.readV r :=
  congrArg (fun v : Vector Byte 16 => v[r]) s.endCheck_v

/-! ## The draw (10_state.md R43, 42_const.md R123) -/

/-- A presented byte is the one that is drawn. -/
theorem State.draw_of_rnd_eq_some {s : State} {b : Byte} (h : s.rnd = some b) : s.draw = b := by rw [draw, h]; rfl

/-- Where none is presented, a free byte is drawn (log 3). -/
theorem State.draw_of_rnd_eq_none {s : State} (h : s.rnd = none) : s.draw = Config.freeByte s.draws := by
  rw [draw, h]; rfl

/-- Cxnn leaves the drawn byte, masked, in its register. -/
theorem effect_rnd_readV (x : Reg) (nn : Byte) (s : State) : (effect (.rnd x nn) s).readV x = s.draw &&& nn :=
  s.readV_writeV_same x _

/-! ## `Step(b)` -/

/-- `Step(b)` of a running machine whose two bytes at pc decode to `i` runs `i` with `b` presented, checks for the end and
takes the byte back. -/
theorem applyOp_step_of_decode {s : State} {i : Instr} (b : Byte) (hs : s.status = .running) (hpc : s.pc.toNat ≤ 0xFFE)
    (hd : decode (s.mem.read s.pc.toNat ++ s.mem.read (s.pc.toNat + 1)) = .ok i) :
    ∃ t, exec i { s with rnd := some b } = .next t ∧ applyOp (.step b) s = .next { t.endCheck with rnd := none } := by
  obtain ⟨t, ht, hstep⟩ := step_of_decode (s := { s with rnd := some b }) hs hpc hd
  exact ⟨t, ht, stepWith_of_next hstep⟩

/-- `Step(b)` at Cxnn writes `b AND nn`, advances and leaves no byte behind. -/
theorem applyOp_step_rnd {x : Reg} {nn : Byte} {s : State} (b : Byte) (hs : s.status = .running)
    (hpc : s.pc.toNat ≤ 0xFFE) (hd : decode (s.mem.read s.pc.toNat ++ s.mem.read (s.pc.toNat + 1)) = .ok (.rnd x nn)) :
    ∃ u, applyOp (.step b) s = .next u ∧ u.readV x = b &&& nn ∧ u.pc = s.pc + 2 ∧ u.rnd = none := by
  obtain ⟨t, ht, hstep⟩ := applyOp_step_of_decode b hs hpc hd
  obtain rfl := Host.Outcome.next.inj ((exec_of_faultOf_eq_none rfl).symm.trans ht)
  exact ⟨_, hstep, (State.endCheck_readV _ x).trans (effect_rnd_readV x nn _), State.endCheck_pc _, rfl⟩

/-! ## The four instructions -/

/-- Settles O35: the register holds the drawn byte under the mask, whichever byte is drawn, and `Step(b)` draws `b`. -/
theorem randomByteIsMasked : Obligations.RandomByteIsMasked := by
  intro x nn s
  have hV : ((effect (.rnd x nn) s).jumpTo (nextPc (.rnd x nn) s)).readV x = s.draw &&& nn := effect_rnd_readV x nn s
  refine ⟨_, exec_of_faultOf_eq_none rfl, rfl, fun b hb => ?_, fun hn => ?_, fun k hk => ?_, ?_, rfl, rfl,
    frame_effect_jumpTo (i := .rnd x nn) rfl s _, fun b => applyOp_step_rnd b⟩
  · rw [hV, State.draw_of_rnd_eq_some hb]
  · rw [hV, State.draw_of_rnd_eq_none hn]
  · rw [hV, BitVec.getLsbD_and, hk, Bool.and_false]
  · rw [hV, BitVec.toNat_and]
    exact Nat.and_le_right

/-- Settles O32: the encoding, the byte read back, and the frame. -/
theorem loadImmediateWritesTheByte : Obligations.LoadImmediateWritesTheByte := fun x nn s =>
  ⟨decode_of_eq_encode (ruleWordXNN_eq 0x6 x nn), _, exec_of_faultOf_eq_none rfl, s.readV_writeV_same x nn, rfl,
    frame_effect_jumpTo (i := .ldImm x nn) rfl s _⟩

/-- Settles O33: the encoding, the sum on 8 bits read back, and the frame, 7xnn being none of the seven that write VF. -/
theorem addImmediateWrapsWithoutFlag : Obligations.AddImmediateWrapsWithoutFlag := fun x nn s =>
  ⟨decode_of_eq_encode (ruleWordXNN_eq 0x7 x nn), _, exec_of_faultOf_eq_none rfl,
    (congrArg BitVec.toNat (s.readV_writeV_same x _)).trans (BitVec.toNat_add _ nn), rfl,
    frame_effect_jumpTo (i := .addImm x nn) rfl s _⟩

/-- Settles O34: the encoding, the twelve bits widened, and the frame. -/
theorem loadIndexWritesTheAddress : Obligations.LoadIndexWritesTheAddress := fun nnn s =>
  ⟨decode_of_eq_encode (ruleWordNNN_eq 0xA nnn), _, exec_of_faultOf_eq_none rfl, addrOperand_toNat nnn, rfl,
    frame_effect_jumpTo (i := .ldI nnn) rfl s _⟩

end Sys2Proof.Machine
end

section
/-! ALU (43_alu.md): what a row does in each of the three orders of writing (R130), `V[x]` alone, `V[x]` then VF, VF then
`V[x]`, and the numbers that its flag and its result stand for. -/

namespace Sys2Proof.Machine

/-! ## Frames of register writes -/

theorem frame_writeV {regs : List Reg} {x : Reg} (hx : x ∈ regs) (parts : List Part) (s : State) (b : Byte) :
    frame regs parts s (s.writeV x b) := by
  refine ⟨rfl, fun r hr => ?_, fun p _ => p.same_writeV s x b⟩
  have hne : r ≠ x := fun h => hr (h ▸ hx)
  rw [State.readV_writeV, if_neg hne]

theorem frame_advance (regs : List Reg) (parts : List Part) (s : State) : frame regs parts s s.advance :=
  ⟨rfl, fun _ _ => rfl, fun p _ => p.same_jumpTo s _⟩

/-- The frame of a row that writes two registers, in either order. -/
theorem frame_advance_writeV_writeV {regs : List Reg} {x y : Reg} (hx : x ∈ regs) (hy : y ∈ regs) (parts : List Part)
    (s : State) (b c : Byte) : frame regs parts s ((s.writeV x b).writeV y c).advance :=
  frame_trans (frame_trans (frame_writeV hx parts s b) (frame_writeV hy parts _ c)) (frame_advance regs parts _)

/-! ## The orders of writing (43_alu.md R130) -/

/-- A row that writes `V[x]` alone. -/
theorem State.aluPlain_next (s : State) (x : Reg) (result : Byte) :
    ∃ t, s.aluPlain x result = .next t ∧ t.readV x = result ∧ t.pc = s.pc + 2 ∧ frame [x] [] s t :=
  ⟨_, rfl, s.readV_writeV_same x result, rfl,
    frame_trans (frame_writeV (List.mem_singleton_self x) [] s result) (frame_advance _ _ _)⟩

/-- A row that writes VF and then `V[x]`: the result stands in `V[x]` whatever `x` is, and the flag in VF where the
result does not. -/
theorem State.aluFlagFirst_next (s : State) (x : Reg) (flag : Bool) (result : Byte) :
    ∃ t, s.aluFlagFirst x flag result = .next t ∧ t.pc = s.pc + 2 ∧ t.readV x = result ∧
      (x ≠ vf → t.readV vf = flagByte flag) ∧ frame [x, vf] [] s t := by
  refine ⟨_, rfl, rfl, State.readV_writeV_same _ x result, fun hx => ?_, ?_⟩
  · rw [advance_readV, readV_writeV, if_neg hx.symm, readV_writeFlag, if_pos rfl]
  · exact frame_advance_writeV_writeV (by simp) (by simp) [] s _ _

/-- 8xy4 writes `V[x]` and then VF: the carry stands in VF whatever `x` is, and the sum in `V[x]` where the carry does
not. -/
theorem execAddReg_next (x y : Reg) (s : State) :
    ∃ t, execAddReg x y s = .next t ∧ t.pc = s.pc + 2 ∧ t.readV vf = flagByte (carry (s.readV x) (s.readV y)) ∧
      (x ≠ vf → t.readV x = s.readV x + s.readV y) ∧ frame [x, vf] [] s t := by
  refine ⟨_, rfl, rfl, State.readV_writeV_same _ vf _, fun hx => ?_, ?_⟩
  · rw [State.advance_readV, State.readV_writeFlag, if_neg hx, State.readV_writeV_same]
  · exact frame_advance_writeV_writeV (by simp) (by simp) [] s _ _

/-! ## Flags and results as numbers -/

theorem flagByte_carry (a b : Byte) : flagByte (carry a b) = if a.toNat + b.toNat > 255 then 1 else 0 := by
  simp only [flagByte, carry_iff, gt_iff_lt]

theorem flagByte_noBorrow (a b : Byte) : flagByte (noBorrow a b) = if a.toNat ≥ b.toNat then 1 else 0 := by
  simp only [flagByte, noBorrow_iff, ge_iff_le]

theorem flagByte_toNat (b : Bool) : (flagByte b).toNat = b.toNat := by cases b <;> rfl

/-- The lowest bit is the remainder of the division by two (43_alu.md R137). -/
theorem flagByte_outRight_toNat (a : Byte) : (flagByte (outRight a)).toNat = a.toNat % 2 := by
  rw [flagByte_toNat, outRight, ← BitVec.testBit_toNat, Nat.toNat_testBit, pow_zero, Nat.div_one]

/-- The highest of eight bits is the quotient by 128 (43_alu.md R139). -/
theorem flagByte_outLeft_toNat (a : Byte) : (flagByte (outLeft a)).toNat = a.toNat / 128 := by
  rw [flagByte_toNat, outLeft, ← BitVec.testBit_toNat, Nat.toNat_testBit]
  omega

theorem toNat_byte_sub (a b : Byte) : (a - b).toNat = (256 + a.toNat - b.toNat) % 256 := by
  rw [BitVec.toNat_sub]
  omega

theorem toNat_byte_shiftRight_one (a : Byte) : (a >>> 1).toNat = a.toNat / 2 := by
  rw [BitVec.toNat_ushiftRight, Nat.shiftRight_eq_div_pow, pow_one]

theorem toNat_byte_shiftLeft_one (a : Byte) : (a <<< 1).toNat = a.toNat * 2 % 256 := by
  rw [BitVec.toNat_shiftLeft, Nat.shiftLeft_eq, pow_one]

/-! ## Rows, their flags and results given as numbers or bits -/

/-- A row that writes `V[x]` alone, its result given bit by bit. -/
theorem State.aluPlain_of_getLsbD {result : Byte} {bit : Nat → Bool} (hresult : ∀ k, result.getLsbD k = bit k)
    (s : State) (x : Reg) : ∃ t, s.aluPlain x result = .next t ∧ (∀ k, (t.readV x).getLsbD k = bit k) ∧
      t.pc = s.pc + 2 ∧ frame [x] [] s t := by
  obtain ⟨t, ht, hx, hpc, hframe⟩ := s.aluPlain_next x result
  exact ⟨t, ht, hx ▸ hresult, hpc, hframe⟩

/-- A subtraction `a − b` into `V[x]`, in numbers (43_alu.md R136, R138). -/
theorem State.aluFlagFirst_sub (s : State) (x : Reg) (a b : Byte) :
    ∃ t, s.aluFlagFirst x (noBorrow a b) (a - b) = .next t ∧ t.pc = s.pc + 2 ∧
      (t.readV x).toNat = (256 + a.toNat - b.toNat) % 256 ∧
      (x ≠ vf → t.readV vf = if a.toNat ≥ b.toNat then 1 else 0) ∧ frame [x, vf] [] s t := by
  obtain ⟨t, ht, hpc, hresult, hflag, hframe⟩ := s.aluFlagFirst_next x (noBorrow a b) (a - b)
  refine ⟨t, ht, hpc, ?_, fun hx => ?_, hframe⟩
  · rw [hresult, toNat_byte_sub]
  · rw [hflag hx, flagByte_noBorrow]

/-- A row that writes VF and then `V[x]`, its flag and its result given as numbers. -/
theorem State.aluFlagFirst_of_toNat {flag : Bool} {result : Byte} {m n : Nat} (hflag : (flagByte flag).toNat = m)
    (hresult : result.toNat = n) (s : State) (x : Reg) :
    ∃ t, s.aluFlagFirst x flag result = .next t ∧ t.pc = s.pc + 2 ∧ (t.readV x).toNat = n ∧
      (x ≠ vf → (t.readV vf).toNat = m) ∧ frame [x, vf] [] s t := by
  obtain ⟨t, ht, hpc, hx, hvf, hframe⟩ := s.aluFlagFirst_next x flag result
  exact ⟨t, ht, hpc, hx ▸ hresult, fun h => hvf h ▸ hflag, hframe⟩

/-! ## The nine rows -/

/-- Settles O38: the encoding, the carry that is written last, and the sum on 8 bits where the carry leaves it. -/
theorem addSetsCarry : Obligations.AddSetsCarry := by
  intro x y s
  obtain ⟨t, ht, hpc, hflag, hsum, hframe⟩ := execAddReg_next x y s
  refine ⟨decode_of_eq_encode (ruleWordXY_eq 0x8 x y 0x4), t, ht, hpc, ?_, fun hx => ?_, hframe⟩
  · rw [hflag, flagByte_carry]
  · rw [hsum hx, BitVec.toNat_add]

/-- Settles O39: one subtraction, with either operand as the minuend. -/
theorem subtractionsSetNoBorrow : Obligations.SubtractionsSetNoBorrow := fun x y s =>
  ⟨s.aluFlagFirst_sub x (s.readV x) (s.readV y), s.aluFlagFirst_sub x (s.readV y) (s.readV x)⟩

/-- Settles O40: the bit that goes out and the byte that stays, to the right and to the left. -/
theorem shiftsMoveOnePlace : Obligations.ShiftsMoveOnePlace := fun x _ s =>
  ⟨s.aluFlagFirst_of_toNat (flagByte_outRight_toNat (s.readV x)) (toNat_byte_shiftRight_one (s.readV x)) x,
    s.aluFlagFirst_of_toNat (flagByte_outLeft_toNat (s.readV x)) (toNat_byte_shiftLeft_one (s.readV x)) x⟩

/-- Settles O36: the encoding, and a row that writes `V[x]` alone. -/
theorem copyRegister : Obligations.CopyRegister := fun x y s =>
  ⟨decode_of_eq_encode (ruleWordXY_eq 0x8 x y 0x0), s.aluPlain_next x (s.readV y)⟩

/-- Settles O37: each bit of the result is the operation on the operands' bits, in a row that writes `V[x]` alone. -/
theorem logicIsBitByBit : Obligations.LogicIsBitByBit := fun x _ s =>
  ⟨s.aluPlain_of_getLsbD (fun _ => BitVec.getLsbD_or) x, s.aluPlain_of_getLsbD (fun _ => BitVec.getLsbD_and) x,
    s.aluPlain_of_getLsbD (fun _ => BitVec.getLsbD_xor) x⟩

end Sys2Proof.Machine
end

section
/-! Display (44_display.md): the clear, and Dxyn through the two facts about its row masks, that a mask is on where a sprite
bit lands and that the collision flag is a mask meeting the row; from there the loop of R151 turn by turn, and the draw
that undoes itself. -/

namespace Sys2Proof.Machine

/-! ## Frames -/

/-- What any instruction leaves alone when it does not fault, VF apart (10_state.md R20 to R29). -/
theorem frame_effect_jumpTo_of_flag (i : Instr) (s : State) (w : Word) :
    frame (vf :: destRegs i) (writtenParts i) s ((effect i s).jumpTo w) := by
  refine ⟨effect_status i s, fun r hr => ?_, fun p hp => Part.same_trans (effect_same hp s) (p.same_jumpTo _ w)⟩
  obtain ⟨hvf, hdest⟩ := not_or.mp (mt List.mem_cons.mpr hr)
  exact effect_readV hdest (fun h => hvf h.2) s

/-! ## The draw as the state it leaves -/

/-- The state after Dxyn when its sprite lies in memory or `n = 0`. -/
def State.afterDraw (s : State) (x y : Reg) (n : Fin 16) : State := (effect (.drw x y n) s).jumpTo (s.pc + 2)

/-- The bounds check is the only thing in the way of a draw (20_memory.md R58). -/
theorem exec_drw_of_le {x y : Reg} {n : Fin 16} {s : State} (h : n.val = 0 ∨ s.i.toNat + (n.val - 1) ≤ 0xFFF) :
    exec (.drw x y n) s = .next (s.afterDraw x y n) :=
  exec_of_faultOf_eq_none (if_neg (by omega))

section AfterDraw

variable (s : State) (x y : Reg) (n : Fin 16)

@[simp] theorem State.afterDraw_i : (s.afterDraw x y n).i = s.i := by simp [afterDraw, effect]
@[simp] theorem State.afterDraw_mem : (s.afterDraw x y n).mem = s.mem := by simp [afterDraw, effect]
@[simp] theorem State.afterDraw_dc : (s.afterDraw x y n).dc = true := by simp [afterDraw, effect]
@[simp] theorem State.afterDraw_fb : (s.afterDraw x y n).fb = s.drawn x y n := by simp [afterDraw, effect]

theorem State.afterDraw_readV (r : Reg) :
    (s.afterDraw x y n).readV r = if r = vf then flagByte (s.collision x y n) else s.readV r := by
  simp [afterDraw, effect]

theorem State.afterDraw_readV_vf : (s.afterDraw x y n).readV vf = flagByte (s.collision x y n) :=
  (s.afterDraw_readV x y n vf).trans (if_pos rfl)

theorem State.afterDraw_readV_of_ne {r : Reg} (hr : r ≠ vf) : (s.afterDraw x y n).readV r = s.readV r :=
  (s.afterDraw_readV x y n r).trans (if_neg hr)

theorem frame_afterDraw : frame [vf] [.framebuffer, .displayChanged] s (s.afterDraw x y n) :=
  frame_effect_jumpTo_of_flag (.drw x y n) s _

/-- A draw changes the pixels under its sprite bits that are 1 (44_display.md R151). -/
theorem State.drawn_pixel_ne_iff (row : Fin 32) (col : Fin 64) :
    (s.drawn x y n).pixel row col ≠ s.fb.pixel row col ↔ spriteBit s x y n row col := by
  rw [← drawMask_iff_spriteBit, drawn_pixel]
  cases s.fb.pixel row col <;> simp

/-- It collides where such a bit lands on a pixel that is on (44_display.md R151). -/
theorem State.collision_iff_spriteBit :
    s.collision x y n = true ↔ ∃ row col, s.fb.pixel row col = true ∧ spriteBit s x y n row col := by
  simp only [collision_iff, drawMask_iff_spriteBit]

end AfterDraw

/-! ## The pixel loop of 44_display.md R151 -/

/-- One turn of the inner loop: the pixel it is at, and the sprite bit it puts there. -/
abbrev Turn := (Fin 32 × Fin 64) × Bool

/-- What the loops carry: the framebuffer, pixel by pixel, and the collision. -/
abbrev LoopState := (Fin 32 → Fin 64 → Bool) × Bool

/-- The turns in order, from a framebuffer and a collision so far. -/
def runTurns (l : List Turn) (acc : LoopState) : LoopState :=
  l.foldl (fun acc t => loopPixel t.1.1 t.1.2 t.2 acc) acc

/-- A turn toggles its own pixel when its bit is 1. -/
theorem loopPixel_fst (p : Fin 32 × Fin 64) (bit : Bool) (acc : LoopState) (row : Fin 32) (col : Fin 64) :
    (loopPixel p.1 p.2 bit acc).1 row col =
      xor (acc.1 row col) (decide ((row, col) = p ∧ bit = true)) := by
  obtain ⟨i, j⟩ := p
  by_cases h : row = i ∧ col = j <;> simp [loopPixel, h]

/-- A turn collides when its bit is 1 and its pixel is on. -/
theorem loopPixel_snd (p : Fin 32 × Fin 64) (bit : Bool) (acc : LoopState) :
    (loopPixel p.1 p.2 bit acc).2 = true ↔ acc.2 = true ∨ (bit = true ∧ acc.1 p.1 p.2 = true) := by
  simp [loopPixel]

/-- A pixel with a turn still to come is not the one just passed. -/
theorem position_ne_of_mem {l : List Turn} {p q : Fin 32 × Fin 64} {bit : Bool} (hp : p ∉ l.map Prod.fst)
    (hq : (q, bit) ∈ l) : q ≠ p :=
  fun h => hp (List.mem_map.mpr ⟨_, hq, h⟩)

/-- Turns at distinct pixels toggle those where they put a 1. -/
theorem runTurns_fst {l : List Turn} (hl : (l.map Prod.fst).Nodup) (acc : LoopState) (row : Fin 32)
    (col : Fin 64) : (runTurns l acc).1 row col = xor (acc.1 row col) (decide (((row, col), true) ∈ l)) := by
  induction l generalizing acc with
  | nil => simp [runTurns]
  | cons t l ih =>
    obtain ⟨p, bit⟩ := t
    obtain ⟨hp, hl⟩ := List.nodup_cons.mp hl
    refine (ih hl (loopPixel p.1 p.2 bit acc)).trans ?_
    rw [loopPixel_fst]
    by_cases hrc : (row, col) = p
    · have hnot : (p, true) ∉ l := fun hmem => position_ne_of_mem hp hmem rfl
      simp [hrc, hnot, eq_comm]
    · simp [hrc]

/-- Turns at distinct pixels find each pixel as it was before the first of them. -/
theorem runTurns_snd {l : List Turn} (hl : (l.map Prod.fst).Nodup) (acc : LoopState) :
    (runTurns l acc).2 = true ↔ acc.2 = true ∨ ∃ row col, acc.1 row col = true ∧ ((row, col), true) ∈ l := by
  induction l generalizing acc with
  | nil => simp [runTurns]
  | cons t l ih =>
    obtain ⟨⟨i, j⟩, bit⟩ := t
    obtain ⟨hp, hl⟩ := List.nodup_cons.mp hl
    have hrest : (∃ row col, (loopPixel i j bit acc).1 row col = true ∧ ((row, col), true) ∈ l) ↔
        ∃ row col, acc.1 row col = true ∧ ((row, col), true) ∈ l :=
      exists₂_congr fun row col => and_congr_left fun hmem => by
        have hne := position_ne_of_mem hp hmem
        rw [loopPixel_fst (i, j)]
        simp [hne]
    have hfirst : (∃ row col, acc.1 row col = true ∧ (((row, col), true) : Turn) = ((i, j), bit)) ↔
        bit = true ∧ acc.1 i j = true := by
      constructor
      · rintro ⟨_, _, hon, ⟨⟩⟩
        exact ⟨rfl, hon⟩
      · rintro ⟨rfl, hon⟩
        exact ⟨i, j, hon, rfl⟩
    refine (ih hl (loopPixel i j bit acc)).trans ?_
    simp only [hrest, loopPixel_snd (i, j), List.mem_cons, and_or_left, exists_or, hfirst, or_assoc]

section Loop

variable (s : State) (x y : Reg) (n : Fin 16)

/-- Turn `b` of the inner loop in turn `r` of the outer one. -/
def State.turn (rb : Nat × Nat) : Turn :=
  ((Fin.ofNat 32 ((s.readV y).toNat + rb.1), Fin.ofNat 64 ((s.readV x).toNat + rb.2)),
    (s.mem.read (s.i.toNat + rb.1)).getLsbD (7 - rb.2))

/-- All turns of the two loops, in their order. -/
def State.turns : List Turn := (List.range n.val ×ˢ List.range 8).map (s.turn x y)

/-- The nested loops of the rule are one pass over the turns. -/
theorem drawLoop_eq_runTurns : drawLoop s x y n = runTurns (s.turns x y n) (s.fb.pixel, false) := by
  simp only [drawLoop, runTurns, State.turns, State.turn, List.foldl_map, SProd.sprod, List.product, List.foldl_flatMap]

/-- A sprite of at most 15 rows of 8 columns meets no pixel twice, even where it wraps around. -/
theorem State.turns_nodup : ((s.turns x y n).map Prod.fst).Nodup := by
  rw [turns, List.map_map]
  refine (List.nodup_range.product List.nodup_range).map_on fun rb hrb rb' hrb' h => ?_
  obtain ⟨r, b⟩ := rb
  obtain ⟨r', b'⟩ := rb'
  simp only [List.mem_product, List.mem_range] at hrb hrb'
  simp only [Function.comp_apply, turn, Prod.mk.injEq, Fin.ext_iff, Fin.val_ofNat] at h ⊢
  omega

theorem State.mem_turns_iff_spriteBit (row : Fin 32) (col : Fin 64) :
    ((row, col), true) ∈ s.turns x y n ↔ spriteBit s x y n row col := by
  simp only [turns, turn, spriteBit, List.mem_map, Prod.exists, List.mem_product, List.mem_range, Prod.mk.injEq,
    Fin.ext_iff, Fin.val_ofNat, and_assoc, eq_comm (b := row.val), eq_comm (b := col.val)]

/-- The loops draw the framebuffer of the row datapath (44_display.md R152). -/
theorem drawLoop_fst (row : Fin 32) (col : Fin 64) : (drawLoop s x y n).1 row col = (s.drawn x y n).pixel row col := by
  rw [drawLoop_eq_runTurns, runTurns_fst (s.turns_nodup x y n), State.drawn_pixel]
  simp only [State.mem_turns_iff_spriteBit, ← State.drawMask_iff_spriteBit, Bool.decide_eq_true]

/-- The loops report the collision of the row datapath (44_display.md R152). -/
theorem drawLoop_snd : (drawLoop s x y n).2 = s.collision x y n := by
  rw [Bool.eq_iff_iff, drawLoop_eq_runTurns, runTurns_snd (s.turns_nodup x y n), State.collision_iff_spriteBit]
  simp only [State.mem_turns_iff_spriteBit, Bool.false_eq_true, false_or]

end Loop

/-! ## Drawing twice -/

/-- What a draw toggles depends on the sprite's place and bytes alone (44_display.md R151). -/
theorem State.drawMask_congr {s t : State} {x y : Reg} (hx : t.readV x = s.readV x) (hy : t.readV y = s.readV y)
    (hi : t.i = s.i) (hm : t.mem = s.mem) (n : Fin 16) (row : Fin 32) :
    t.drawMask x y n row = s.drawMask x y n row := by
  simp only [drawMask, ea, hx, hy, hi, hm]

section Twice

variable (s : State) {x y : Reg} (n : Fin 16) (hx : x ≠ vf) (hy : y ≠ vf)
include hx hy

theorem State.drawMask_afterDraw (row : Fin 32) :
    (s.afterDraw x y n).drawMask x y n row = s.drawMask x y n row :=
  drawMask_congr (s.afterDraw_readV_of_ne x y n hx) (s.afterDraw_readV_of_ne x y n hy)
    (s.afterDraw_i x y n) (s.afterDraw_mem x y n) n row

/-- The same mask twice on each row (44_display.md R151 (h)). -/
theorem State.drawn_afterDraw : (s.afterDraw x y n).drawn x y n = s.fb := by
  refine Vector.ext fun k hk => ?_
  have hrow (row : Fin 32) : ((s.afterDraw x y n).drawn x y n)[row] = s.fb[row] := by
    rw [drawn_get, drawMask_afterDraw s n hx hy, afterDraw_fb, drawn_get, BitVec.xor_assoc, BitVec.xor_self,
      BitVec.xor_zero]
  exact hrow ⟨k, hk⟩

/-- A sprite bit that met a pixel off turned it on, so it meets it on the second time. -/
theorem State.collision_afterDraw (hc : s.collision x y n = false) {row : Fin 32} {col : Fin 64}
    (hbit : spriteBit s x y n row col) : (s.afterDraw x y n).collision x y n = true := by
  have hmask := (s.drawMask_iff_spriteBit x y n row col).mpr hbit
  have hoff : s.fb.pixel row col = false := Bool.eq_false_iff.mpr fun hon =>
    Bool.eq_false_iff.mp hc ((s.collision_iff_spriteBit x y n).mpr ⟨row, col, hon, hbit⟩)
  refine (collision_iff _ x y n).mpr ⟨row, col, ?_, ?_⟩
  · rw [afterDraw_fb, drawn_pixel, hoff, hmask]; rfl
  · rw [drawMask_afterDraw s n hx hy, hmask]

end Twice

/-- A sprite with a byte that is not 0 has a bit that lands somewhere (44_display.md R151). -/
theorem exists_spriteBit {s : State} {n : Fin 16} {r : Nat} (hr : r < n.val) (hbyte : s.mem.read (s.i.toNat + r) ≠ 0)
    (x y : Reg) : ∃ row col, spriteBit s x y n row col := by
  obtain ⟨k, hk, hbit⟩ : ∃ k, k < 8 ∧ (s.mem.read (s.i.toNat + r)).getLsbD k = true := by
    by_contra hnone
    refine hbyte (BitVec.eq_of_getLsbD_eq fun k hk => ?_)
    simpa using fun h => hnone ⟨k, hk, h⟩
  refine ⟨Fin.ofNat 32 ((s.readV y).toNat + r), Fin.ofNat 64 ((s.readV x).toNat + (7 - k)), r, 7 - k, hr, by omega,
    rfl, rfl, ?_⟩
  rwa [show 7 - (7 - k) = k by omega]

/-! ## The statements -/

/-- Settles O42: the masks are on where sprite bits land, and the flag that VF holds is the collision. -/
theorem drawTogglesWhereSpriteBitsLand : Obligations.DrawTogglesWhereSpriteBitsLand := by
  intro x y n s h
  have hvf := s.afterDraw_readV_vf x y n
  refine ⟨_, exec_drw_of_le h, rfl, s.afterDraw_dc x y n, fun row col => ?_, ?_, ?_, frame_afterDraw s x y n⟩
  · rw [State.afterDraw_fb]
    exact s.drawn_pixel_ne_iff x y n row col
  · rw [hvf]
    exact (flagByte_zero_or_one _).symm
  · rw [hvf, flagByte_eq_one, State.collision_iff_spriteBit]

/-- Settles O43: the turns of the loops are at distinct pixels, so they toggle those under the masks and collide where a
mask meets a pixel that was on. -/
theorem drawDatapathRefinesThePixelLoop : Obligations.DrawDatapathRefinesThePixelLoop := by
  intro x y n s h
  refine ⟨_, exec_drw_of_le h, fun row col => ?_, ?_⟩
  · rw [drawLoop_fst, State.afterDraw_fb]
  · rw [drawLoop_snd, State.afterDraw_readV_vf]
    rfl

/-- Settles O44: the second draw has the masks of the first, and meets the pixels that the first turned on. -/
theorem drawingTwiceRestoresTheFramebuffer : Obligations.DrawingTwiceRestoresTheFramebuffer := by
  intro x y n s hx hy h
  refine ⟨_, _, exec_drw_of_le h, exec_drw_of_le ((s.afterDraw_i x y n).symm ▸ h), ?_, ?_⟩
  · rw [State.afterDraw_fb, s.drawn_afterDraw n hx hy]
  rintro hfirst ⟨r, hr, hbyte⟩
  obtain ⟨row, col, hbit⟩ := exists_spriteBit hr hbyte x y
  rw [State.afterDraw_readV_vf, flagByte_eq_zero] at hfirst
  rw [State.afterDraw_readV_vf, flagByte_eq_one]
  exact s.collision_afterDraw n hx hy hfirst hbit

/-! ## The clear -/

theorem pixel_replicate_zero (row : Fin 32) (col : Fin 64) :
    Framebuffer.pixel (Vector.replicate 32 0) row col = false := by
  simp [Framebuffer.pixel]

/-- Settles O41: the rows of zeros, and the frame of an instruction that writes no register. -/
theorem clearScreenClearsEveryPixel : Obligations.ClearScreenClearsEveryPixel := fun s =>
  ⟨rfl, _, exec_of_faultOf_eq_none rfl, pixel_replicate_zero, rfl, rfl, frame_effect_jumpTo (i := .cls) rfl s _⟩

end Sys2Proof.Machine
end

section
/-! Timer and keypad (45_timer_key.md): the two moves between `V[x]` and DT, the one scan of the keypad, and Fx18. None of
the four can fault, so each is its effect and the advance, and its frame is the one of every instruction. -/

namespace Sys2Proof.Machine

/-! ## The scan of the keypad (45_timer_key.md R161) -/

theorem keyByte_toNat (k : Fin 16) : (keyByte k).toNat = k.val := by
  rw [keyByte, BitVec.toNat_ofNat, Nat.mod_eq_of_lt (by omega)]

/-- Fx0A leaves what the scan found in its register, the old value where it found nothing. -/
theorem effect_ldVxK_readV (x : Reg) (s : State) :
    (effect (.ldVxK x) s).readV x = s.lowestKey.elim (s.readV x) keyByte := s.readV_writeV_same x _

/-- Settles O46: the encoding, the frame, and what the scan finds with a least pressed key and with none; pc advances
whichever it is. -/
theorem keypadIsSampledWithoutWaiting : Obligations.KeypadIsSampledWithoutWaiting := by
  refine fun x s => ⟨decode_of_eq_encode (ruleWordX_eq 0xF x 0x0A), _, exec_of_faultOf_eq_none rfl, rfl,
    frame_effect_jumpTo (i := .ldVxK x) rfl s _, fun k hk hleast => ?_, fun hnone => ?_⟩
  · rw [State.jumpTo_readV, effect_ldVxK_readV, State.lowestKey_of_least hk hleast, Option.elim_some, keyByte_toNat]
  · rw [State.jumpTo_readV, effect_ldVxK_readV, State.lowestKey_of_none hnone, Option.elim_none]

/-! ## The timer and Fx18 -/

/-- Settles O45: the byte read back, and the frame, in which DT is kept. -/
theorem readDelayTimer : Obligations.ReadDelayTimer := fun x s =>
  ⟨_, exec_of_faultOf_eq_none rfl, s.readV_writeV_same x s.dt, rfl, frame_effect_jumpTo (i := .ldVxDt x) rfl s _⟩

/-- Settles O47: the encoding, the timer written, and the frame of an instruction that writes no register. -/
theorem writeDelayTimer : Obligations.WriteDelayTimer := fun x s =>
  ⟨decode_of_eq_encode (ruleWordX_eq 0xF x 0x15), _, exec_of_faultOf_eq_none rfl, rfl, rfl,
    frame_effect_jumpTo (i := .ldDtVx x) rfl s _⟩

/-- Settles O48: no effect but the advance, so the frame of an instruction that writes nothing. -/
theorem soundTimerOpcodeOnlyAdvances : Obligations.SoundTimerOpcodeOnlyAdvances := fun x s =>
  ⟨_, exec_of_faultOf_eq_none rfl, rfl, frame_effect_jumpTo (i := .ldStVx x) rfl s _⟩

end Sys2Proof.Machine
end

section
/-! Index and memory (46_index_mem.md): the two operations on I, the two stores from I on and the load, each its effect
and the advance where the bounds check lets it through, and the round trip of a dump and a load. -/

namespace Sys2Proof.Machine

/-! ## I and its flag (46_index_mem.md R170, R171) -/

/-- The sum of I and a byte wraps at 16 bits (D13, log 13). -/
theorem toNat_add_byteOperand (w : Word) (b : Byte) :
    (w + byteOperand b).toNat = (w.toNat + b.toNat) % 65536 := by
  have hb : (byteOperand b).toNat = b.toNat := BitVec.toNat_setWidth_of_le (by decide)
  rw [BitVec.toNat_add, hb]

theorem flagByte_indexOverflow (s : State) (new : Word) :
    flagByte (s.indexOverflow new) = if new.toNat > s.fx1eThreshold then 1 else 0 := by
  simp only [flagByte, State.indexOverflow_iff, gt_iff_lt]

/-- The product of a byte and five fits in a word. -/
theorem glyphAddr_toNat (a : Byte) : (glyphAddr a).toNat = a.toNat * 5 := by
  rw [glyphAddr, BitVec.toNat_ofNat, Nat.mod_eq_of_lt (by omega)]

/-- Settles O49: the sum that wraps, the flag on the new I, and the frame of one of the seven that write VF. -/
theorem addToIndexSetsOverflow : Obligations.AddToIndexSetsOverflow := fun x s =>
  ⟨_, exec_of_faultOf_eq_none rfl, toNat_add_byteOperand s.i (s.readV x),
    (State.readV_writeV_same _ vf _).trans (flagByte_indexOverflow s _), rfl,
    frame_effect_jumpTo_of_flag (.addI x) s _⟩

/-- Settles O50: the encoding, the product that fits, and the frame. -/
theorem glyphAddressIsFiveTimesTheDigit : Obligations.GlyphAddressIsFiveTimesTheDigit := fun x s =>
  ⟨decode_of_eq_encode (ruleWordX_eq 0xF x 0x29), _, exec_of_faultOf_eq_none rfl, glyphAddr_toNat (s.readV x), rfl,
    frame_effect_jumpTo (i := .ldF x) rfl s _⟩

/-! ## The two stores (46_index_mem.md R172, R173) -/

theorem Memory.read_writeBytes_of_outside (m : Memory) {a b : Nat} {bs : List Byte}
    (h : b < a ∨ a + bs.length ≤ b) : (m.writeBytes a bs).read b = m.read b := by
  rw [read_writeBytes, if_neg (by omega)]

/-- The three digits as numbers, each of which fits in its byte. -/
theorem digits_toNat (b : Byte) :
    (digits b).map BitVec.toNat = [b.toNat / 100, b.toNat / 10 % 10, b.toNat % 10] := by
  have hhundreds : b.toNat / 100 % 256 = b.toNat / 100 := Nat.mod_eq_of_lt (by omega)
  have htens : b.toNat / 10 % 10 % 256 = b.toNat / 10 % 10 := Nat.mod_eq_of_lt (by omega)
  have hones : b.toNat % 10 % 256 = b.toNat % 10 := Nat.mod_eq_of_lt (by omega)
  simp only [digits, List.map_cons, List.map_nil, BitVec.toNat_ofNat, Nat.reducePow, hhundreds, htens, hones]

theorem Memory.toNat_read_writeBytes_digits (m : Memory) (a : Nat) (b : Byte) {k : Nat} (hk : k < 3) :
    ((m.writeBytes a (digits b)).read (a + k)).toNat =
      [b.toNat / 100, b.toNat / 10 % 10, b.toNat % 10].getD k 0 := by
  rw [read_writeBytes, digits_length, if_pos (by omega), Nat.add_sub_cancel_left, ← digits_toNat]
  exact (List.getD_map _ _ BitVec.toNat).symm

/-- The store of the digits, where the bounds check lets it through (20_memory.md R58). -/
theorem exec_ldB_of_le {s : State} {x : Reg} (h : s.i.toNat + 2 ≤ 0xFFF) : exec (.ldB x) s =
    .next (s.writeMem (s.mem.writeBytes s.i.toNat (digits (s.readV x)))).advance :=
  State.checked_of_le h _

/-- Settles O51: the bytes of the store are the digits, and outside their three addresses it leaves memory alone. -/
theorem decimalDigitsAreStored : Obligations.DecimalDigitsAreStored := by
  intro x s hi
  have hdigit {k : Nat} (hk : k < 3) := s.mem.toNat_read_writeBytes_digits s.i.toNat (s.readV x) hk
  exact ⟨_, exec_ldB_of_le hi, hdigit (k := 0) (by decide), hdigit (k := 1) (by decide), hdigit (k := 2) (by decide),
    fun a ha => Memory.read_writeBytes_of_outside _ (by rw [digits_length]; omega), rfl,
    frame_effect_jumpTo (i := .ldB x) rfl s _⟩

/-- Settles O52: the bytes of the store are the registers, and outside their addresses it leaves memory alone. -/
theorem registersAreDumped : Obligations.RegistersAreDumped := fun x s hi =>
  ⟨_, exec_storeRegs_of_le hi, fun _ => read_writeBytes_regsTo s,
    fun a ha => Memory.read_writeBytes_of_outside _ (by rw [State.regsTo_length]; omega), rfl,
    frame_effect_jumpTo (i := .storeRegs x) rfl s _⟩

/-! ## The load (46_index_mem.md R174) -/

/-- Settles O53: the register file that is loaded, register by register, and the frame. -/
theorem registersAreLoaded : Obligations.RegistersAreLoaded := fun x s hi =>
  ⟨_, exec_of_faultOf_eq_none (if_neg (by omega)), fun k hk => (s.regsLoaded_get x k).trans (if_pos hk), rfl,
    frame_effect_jumpTo (i := .loadRegs x) rfl s _⟩

/-- Settles O54: the dump keeps I, so the load reads the bytes that the dump stored, and it leaves the registers above
`x` as they were put. -/
theorem dumpThenLoadBringsRegistersBack : Obligations.DumpThenLoadBringsRegistersBack := by
  intro x s v hi
  obtain ⟨t, ht, hstored, -, -, -, -, hparts⟩ := registersAreDumped x s hi
  have hti : t.i = s.i := hparts .index (by decide)
  obtain ⟨u, hu, hloaded, -, -, hkept, -⟩ := registersAreLoaded x (t.writeRegs v) (by rwa [State.writeRegs_i, hti])
  refine ⟨t, u, ht, hu, fun k => ?_⟩
  split
  · next hk => rw [hloaded k hk, State.writeRegs_mem, State.writeRegs_i, hti, hstored k hk]
  · next hk => exact hkept k (by simpa using hk)

end Sys2Proof.Machine
end

section
/-! Faults and the end of the program (60_exceptions.md R182 to R186): a step of a running machine latches a fault and does
nothing else, or runs an instruction that leaves the machine running and then checks for the end. -/

namespace Sys2Proof.Machine

/-! ## The fault table -/

theorem effect_jumpTo_status (i : Instr) (s : State) (w : Word) : ((effect i s).jumpTo w).status = s.status :=
  effect_status i s

/-- Settles O12: `exec` is the table's fault, or the effect, which leaves STATUS alone. -/
theorem faultsExactlyAsTheTableSays : Obligations.FaultsExactlyAsTheTableSays := fun i s hs =>
  ⟨fun _ => exec_of_faultOf_eq_some, fun h => ⟨_, exec_of_faultOf_eq_none h, (effect_jumpTo_status i s _).trans hs⟩⟩

/-! ## What a step leaves in STATUS -/

/-- The two ways a step of a running machine can go. -/
theorem step_latches_or_endChecks {s t : State} (hs : s.status = .running) (h : step s = .next t) :
    (∃ f, t = s.latch f) ∨ ∃ u : State, u.status = .running ∧ t = u.endCheck := by
  obtain ⟨hstopped, -⟩ | ⟨-, -, w, e, -, -, rfl⟩ | ⟨-, -, w, i, u, -, -, hu, rfl⟩ := step_next h
  · exact absurd hs hstopped
  · exact .inl ⟨_, rfl⟩
  · obtain ⟨f, -, rfl⟩ | ⟨-, rfl⟩ := exec_next hu
    · exact .inl ⟨f, State.endCheck_of_stays fun hr => nomatch hr.1⟩
    · exact .inr ⟨_, (effect_jumpTo_status i s _).trans hs, rfl⟩

namespace State

theorem not_safe_latch (s : State) (f : Trap) : ¬(s.latch f).safe := fun h => h f rfl

/-- The termination check ends a running machine whose pc has left memory, and leaves it running otherwise
(30_encoding.md R71). -/
theorem endCheck_of_running {u : State} (hu : u.status = .running) :
    (0xFFF ≤ u.pc.toNat ∧ u.endCheck.status = .ended) ∨ (u.pc.toNat ≤ 0xFFE ∧ u.endCheck.status = .running) := by
  rw [endCheck_status, hu]
  by_cases hp : 0xFFF ≤ u.pc.toNat
  · exact .inl ⟨hp, if_pos ⟨rfl, by omega⟩⟩
  · exact .inr ⟨by omega, if_neg fun ⟨_, hgt⟩ => hp (by omega)⟩

/-- The termination check latches no fault. -/
theorem endCheck_safe {u : State} (hu : u.status = .running) : u.endCheck.safe := by
  intro f hf
  obtain ⟨-, h⟩ | ⟨-, h⟩ := endCheck_of_running hu <;> exact nomatch h.symm.trans hf

end State

/-- Settles O11: the termination check latches no fault, so a faulting step latched its own. -/
theorem faultingStepChangesOnlyStatus : Obligations.FaultingStepChangesOnlyStatus := by
  intro s t f hs h hf
  obtain ⟨g, rfl⟩ | ⟨u, hu, rfl⟩ := step_latches_or_endChecks hs h
  · obtain rfl := Status.faulted.inj hf
    rfl
  · exact absurd hf (State.endCheck_safe hu f)

/-- Settles O10: a latched fault is neither ended nor running nor safe, and the termination check keeps pc. -/
theorem endsExactlyWhenPcLeavesMemory : Obligations.EndsExactlyWhenPcLeavesMemory := by
  intro s t hs h
  obtain ⟨f, rfl⟩ | ⟨u, hu, rfl⟩ := step_latches_or_endChecks hs h
  · simp [State.not_safe_latch]
  · have hsafe := State.endCheck_safe hu
    rw [State.endCheck_pc]
    obtain ⟨hp, hended⟩ | ⟨hp, hrunning⟩ := State.endCheck_of_running hu
    · simp [hsafe, hended, hp, show ¬u.pc.toNat ≤ 0xFFE by omega]
    · simp [hsafe, hrunning, hp, show ¬0xFFF ≤ u.pc.toNat by omega]

end Sys2Proof.Machine
end
